-- ==== Sys2Proof/Word.lean ====
section
/-! DEFINITION. The data the block moves (spec 00_scope.md R10, 10_state.md R21, R36 to R41): bytes, bus
addresses, descriptors, the ten bytes of a bank, the output latches. Bit 0 is the least significant bit. -/

namespace Sys2Proof

/-- A register byte, unsigned (R10). -/
abbrev Byte := BitVec 8

/-- A register address on the bus callbacks: `ADDR_WIDTH` = 8 (R8, R61, decision D1). -/
abbrev RegAddr := BitVec 8

/-- The 20-bit operation descriptor `W[19:0]` (R93). -/
abbrev Descriptor := BitVec 20

/-- Four levels, one per input pin; bit `i` is input `i`, 1 for high (R14, R95). -/
abbrev Pins := BitVec 4

/-- The ten bytes addressed 0 to 9, as named fields (R21, R23). The same record is the image of the bank in
the storage block `nv` and in the flush snapshot, whose byte `a` is the image of register `a` (R45, R62). -/
structure RegBank where
  /-- Register 0 (R26). -/
  slaveAddr : Byte
  /-- Register 1 (R27 to R30). -/
  status : Byte
  /-- Register 2 (R31). -/
  direction : Byte
  /-- Register 3 (R32). -/
  reserved : Byte
  /-- Register 4 (R33). -/
  speed0 : Byte
  /-- Register 5 (R33). -/
  speed1 : Byte
  /-- Register 6 (R34). -/
  inopts0 : Byte
  /-- Register 7 (R34). -/
  inopts1 : Byte
  /-- Register 8 (R35). -/
  intMask0 : Byte
  /-- Register 9 (R35). -/
  intMask1 : Byte
deriving DecidableEq, Repr, Inhabited

/-- The output latches, each the last value driven on a hardware capability (R20, R36 to R41, R91). -/
structure Latches where
  /-- `dir_pin[3:0]`: the level of each direction pin (R36). -/
  dirPin : BitVec 4
  /-- `pwm_en[1:0]`: whether each PWM channel is enabled (R37). -/
  pwmEn : BitVec 2
  /-- `pwm_duty[0]`: the duty last set on channel 0 (R38). -/
  pwmDuty0 : Byte
  /-- `pwm_duty[1]`: the duty last set on channel 1 (R38). -/
  pwmDuty1 : Byte
  /-- `pullup[3:0]`: whether the pull-up of each input is enabled (R39). -/
  pullup : BitVec 4
  /-- `int_line[1:0]`: whether each interrupt line is asserted (R40). -/
  intLine : BitVec 2
  /-- `bus_addr`: the address the bus engine was last reinitialised with (R41). -/
  busAddr : Byte
deriving DecidableEq, Repr, Inhabited

end Sys2Proof
end

