-- ==== Sys2Proof/Config.lean ====
section
/-! DEFINITION. The implementation parameters (spec 00_scope.md R8). The ones the spec leaves OPEN are opaque
constants: nothing can be proved of their values, so a claim holds for every value of them. The bit positions
of the input options are in Machine/Operands.lean. -/

namespace Sys2Proof.Config

/-- `N`: the number of registers (R8). -/
abbrev nRegs : Nat := 10

/-- `COMMIT_ADDR`: the write address that requests persistence (R8, R74, decision D14). -/
abbrev commitAddr : RegAddr := 127

/-- `IsBlank`: the test that a storage block is blank (R8, R166, decision D9). OPEN. DESIGN CHOICE (log 8):
a constant without a body. Safe. -/
opaque isBlank : RegBank → Bool

/-- `DEFAULT_BANK`: the bytes used when storage is blank (R8, R166, decision D9). OPEN. DESIGN CHOICE (log 8).
Safe. -/
opaque defaultBank : RegBank

/-- `POR_OUT`: the output latches at the `n`-th draw of free values, before `RESTORE` drives them (R8, R50,
decision D11). OPEN. DESIGN CHOICE (log 7). Safe. -/
opaque porOut : Nat → Latches

/-- The bank between power-up and `RESTORE`, which is unspecified (R50). DESIGN CHOICE (log 7). Safe. -/
opaque porBank : Nat → RegBank

/-- `dirty` between power-up and `RESTORE`, which is unspecified (R50). DESIGN CHOICE (log 7). Safe. -/
opaque porDirty : Nat → Bool

/-- `flush_buf` between power-up and `RESTORE`, which is unspecified (R50). DESIGN CHOICE (log 7). Safe. -/
opaque porFlushBuf : Nat → Option RegBank

/-- What the read port shows between power-up and the first `RD`. DESIGN CHOICE (log 7). Safe. -/
opaque porRdata : Nat → Byte

/-- The storage block after power is lost while a flush is in progress (R170, R233, decision D25). OPEN.
DESIGN CHOICE (log 9). Safe. -/
opaque nvAfterLoss : Nat → RegBank

end Sys2Proof.Config
end

