-- ==== Sys2Proof/Syntax.lean ====
section
/-! DEFINITION. The seventeen operations of the block (spec 30_encoding.md R101), one constructor per row of
spec/opcode_table.json, and the names of the decoder's rejections (R96, R104). -/

namespace Sys2Proof

/-- An operation request. Operands are unsigned and used as they stand (R98). -/
inductive Instr where
  /-- `RD addr`, bus read (R120). -/
  | rd (addr : RegAddr)
  /-- `WR.SLAVE_ADDR`, bus write of address 0 (R132). -/
  | wrSlaveAddr (data : Byte)
  /-- `WR.STATUS`, bus write of address 1 (R133). -/
  | wrStatus (data : Byte)
  /-- `WR.DIRECTION`, bus write of address 2 (R134). -/
  | wrDirection (data : Byte)
  /-- `WR.RESERVED`, bus write of address 3 (R135). -/
  | wrReserved (data : Byte)
  /-- `WR.SPEED0`, bus write of address 4 (R136). -/
  | wrSpeed0 (data : Byte)
  /-- `WR.SPEED1`, bus write of address 5 (R137). -/
  | wrSpeed1 (data : Byte)
  /-- `WR.INOPTS0`, bus write of address 6 (R138). -/
  | wrInopts0 (data : Byte)
  /-- `WR.INOPTS1`, bus write of address 7 (R139). -/
  | wrInopts1 (data : Byte)
  /-- `WR.INTMASK0`, bus write of address 8 (R140). -/
  | wrIntmask0 (data : Byte)
  /-- `WR.INTMASK1`, bus write of address 9 (R141). -/
  | wrIntmask1 (data : Byte)
  /-- `WR.COMMIT`, bus write of `COMMIT_ADDR` (R143). -/
  | wrCommit (data : Byte)
  /-- `WR.NOP`, bus write of any other address (R142). -/
  | wrNop (addr : RegAddr) (data : Byte)
  /-- `PINCHG`, pin-change event with the raw levels of the four inputs (R150). -/
  | pinchg (pin : Pins)
  /-- `FLUSH_BEGIN`, first step of the background flush (R171). -/
  | flushBegin
  /-- `FLUSH_END`, second step of the background flush (R172). -/
  | flushEnd
  /-- `RESTORE`, the startup sequence (R165). -/
  | restore
deriving DecidableEq, Repr

/-- Why a descriptor is not an operation (R96, R104). -/
inductive DecodeError where
  /-- Bit 16 is 1; it must be 0 (R93). -/
  | zeroBitSet
  /-- Class code 110 or 111 (R94). -/
  | noSuchClass
  /-- An operand bit that the class requires to be 0 is 1 (R93). -/
  | operandBitSet
deriving DecidableEq, Repr

/-- The four agents (R196). -/
inductive Agent where
  /-- The bus engine. -/
  | busEngine
  /-- The pin-change detector. -/
  | pinChangeDetector
  /-- The background loop. -/
  | backgroundLoop
  /-- The startup code. -/
  | startupCode
deriving DecidableEq, Repr

end Sys2Proof
end

