-- ==== Sys2Proof/WellFormed.lean ====
section
/-! DEFINITION. Which terms of `Instr` are operations of the block. The operand types carry every check but
one: `WR.NOP` stands only for the addresses that no other bus write has (spec 30_encoding.md R97,
41_write_handlers.md R142). -/

namespace Sys2Proof

/-- An address whose bus write is `WR.NOP`: 10 to 126 and 128 to 255 (R142). -/
def nopAddr (a : RegAddr) : Bool :=
  decide (Config.nRegs ≤ a.toNat) && a != Config.commitAddr

/-- The operation is one an agent can request. -/
def Instr.wellFormed : Instr → Bool
  | .rd _ => true
  | .wrSlaveAddr _ => true
  | .wrStatus _ => true
  | .wrDirection _ => true
  | .wrReserved _ => true
  | .wrSpeed0 _ => true
  | .wrSpeed1 _ => true
  | .wrInopts0 _ => true
  | .wrInopts1 _ => true
  | .wrIntmask0 _ => true
  | .wrIntmask1 _ => true
  | .wrCommit _ => true
  | .wrNop addr _ => nopAddr addr
  | .pinchg _ => true
  | .flushBegin => true
  | .flushEnd => true
  | .restore => true

end Sys2Proof
end

