-- ==== Sys2Proof/Decode.lean ====
section
/-! DEFINITION. The operation decoder and the encoder (spec 30_encoding.md R93 to R98, R104). The decoder is
total on descriptors and rejects by name. -/

namespace Sys2Proof

/-- Field `cls`, bits 19:17 (R93). -/
def descCls (w : Descriptor) : BitVec 3 := w.extractLsb' 17 3

/-- The must-be-zero bit 16 (R93). -/
def descZero (w : Descriptor) : Bool := w.getLsbD 16

/-- Field `addr`, bits 15:8 (R93). -/
def descAddr (w : Descriptor) : RegAddr := w.extractLsb' 8 8

/-- Field `data`, bits 7:0 (R93). -/
def descData (w : Descriptor) : Byte := w.extractLsb' 0 8

/-- The write decoder: it selects by address alone (R97). -/
def decodeWrite (addr : RegAddr) (data : Byte) : Instr :=
  match addr.toNat with
  | 0 => .wrSlaveAddr data
  | 1 => .wrStatus data
  | 2 => .wrDirection data
  | 3 => .wrReserved data
  | 4 => .wrSpeed0 data
  | 5 => .wrSpeed1 data
  | 6 => .wrInopts0 data
  | 7 => .wrInopts1 data
  | 8 => .wrIntmask0 data
  | 9 => .wrIntmask1 data
  | _ => if addr = Config.commitAddr then .wrCommit data else .wrNop addr data

/-- The classes without address or data: every operand bit must be 0 (R93, R95). -/
def decodeBare (w : Descriptor) (i : Instr) : Except DecodeError Instr :=
  if descAddr w = 0#8 ∧ descData w = 0#8 then .ok i else .error .operandBitSet

/-- A descriptor whose bit 16 is 0, by class (R94, R96). -/
def decodeClass (w : Descriptor) : Except DecodeError Instr :=
  match (descCls w).toNat with
  | 0 => if descData w = 0#8 then .ok (.rd (descAddr w)) else .error .operandBitSet
  | 1 => .ok (decodeWrite (descAddr w) (descData w))
  | 2 =>
    if descAddr w = 0#8 ∧ (descData w).extractLsb' 4 4 = 0#4 then
      .ok (.pinchg ((descData w).extractLsb' 0 4))
    else .error .operandBitSet
  | 3 => decodeBare w .flushBegin
  | 4 => decodeBare w .flushEnd
  | 5 => decodeBare w .restore
  | _ => .error .noSuchClass

/-- The decoder, in full (R96). -/
def decode (w : Descriptor) : Except DecodeError Instr :=
  if descZero w then .error .zeroBitSet else decodeClass w

/-- A descriptor from its fields, bit 16 zero: `cls << 17 | addr << 8 | data` (R93, R108). -/
def packDesc (cls : BitVec 3) (addr : RegAddr) (data : Byte) : Descriptor :=
  (cls.setWidth 20 <<< 17) ||| (addr.setWidth 20 <<< 8) ||| data.setWidth 20

/-- A bus-write descriptor (format `BW`, R95). -/
def packWrite (addr : RegAddr) (data : Byte) : Descriptor := packDesc 0b001 addr data

/-- The descriptor of an operation (R95, R101). -/
def encode : Instr → Descriptor
  | .rd addr => packDesc 0b000 addr 0
  | .wrSlaveAddr data => packWrite 0 data
  | .wrStatus data => packWrite 1 data
  | .wrDirection data => packWrite 2 data
  | .wrReserved data => packWrite 3 data
  | .wrSpeed0 data => packWrite 4 data
  | .wrSpeed1 data => packWrite 5 data
  | .wrInopts0 data => packWrite 6 data
  | .wrInopts1 data => packWrite 7 data
  | .wrIntmask0 data => packWrite 8 data
  | .wrIntmask1 data => packWrite 9 data
  | .wrCommit data => packWrite Config.commitAddr data
  | .wrNop addr data => packWrite addr data
  | .pinchg pin => packDesc 0b010 0 (pin.setWidth 8)
  | .flushBegin => packDesc 0b011 0 0
  | .flushEnd => packDesc 0b100 0 0
  | .restore => packDesc 0b101 0 0

/-- The descriptor that an `nbits`-bit table word presents. A number that does not fit in 20 bits is no
descriptor; it is presented as the all-ones word, which is no operation (R104). DESIGN CHOICE (log 2). Safe. -/
def descriptorOfWord (nbits w : Nat) : Descriptor :=
  let v := w % 2 ^ nbits
  if v < 2 ^ 20 then BitVec.ofNat 20 v else BitVec.allOnes 20

/-- The operation the decoder reads from a table word (see `descriptorOfWord`). -/
def decodeTableWord (nbits w : Nat) : Option Instr :=
  match decode (descriptorOfWord nbits w) with
  | .ok i => some i
  | .error _ => none

end Sys2Proof
end

