-- ==== Sys2Proof/Machine/FieldCodec.lean ====
section
/-! DEFINITION. The pure bit helpers (spec 40_regbank_fieldcodec.md R123, R124). They are used on bytes and on the
narrower latch vectors, so the width is a parameter. -/

namespace Sys2Proof.Machine

/-- `getBit(b, pos)`, written `b[pos]` in the spec (R123). The spec says that a model takes `pos` as a 3-bit number
and that the source is silent above 7; here `pos` is any number and a position outside the vector gives 0. DESIGN CHOICE
(log 26). Safe: no rule calls it so. -/
def getBit {n : Nat} (b : BitVec n) (pos : Nat) : Bool := b.getLsbD pos

/-- `setBit(b, pos, v)`: `b` with bit `pos` replaced by `v` (R124). A position outside the vector changes nothing. DESIGN
CHOICE (log 26). Safe: no rule calls it so. -/
def setBit {n : Nat} (b : BitVec n) (pos : Nat) (v : Bool) : BitVec n :=
  (b &&& ~~~(1#n <<< pos)) ||| ((BitVec.ofBool v).setWidth n <<< pos)

end Sys2Proof.Machine
end

