-- ==== Sys2Proof/Machine/Flags.lean ====
section
/-! DEFINITION. The interrupt flags `status[5:4]` (spec 10_state.md R29, R47): their places, what a bus write of `status`
commits (41_write_handlers.md R133), and when the mask selects a line (42_input_sampler.md R155). -/

namespace Sys2Proof.Machine

/-- The flag of interrupt line `k` is bit `4+k` of `status` (R29). -/
def intFlagBit (k : Fin 2) : Nat := 4 + k.val

/-- `~(bit4 | bit5)` in 8 bits: the bits a write of `status` cannot clear (R125, R133). -/
def statusKeep : Byte := ~~~(setBit (setBit 0#8 4 true) 5 true)

/-- `(incoming | ~(bit4|bit5)) & currentStatus` (R133). -/
def committedStatus (incoming current : Byte) : Byte := (incoming ||| statusKeep) &&& current

/-- A write of `status` releases line `k` when the incoming flag bit is 0 (R133). -/
def releasesLine (incoming : Byte) (k : Fin 2) : Bool := !getBit incoming (intFlagBit k)

/-- `INT_ON_CHANGE_ONLY`: the reading of the masks that conflict C2 does not take; default false (decision D7, log 15). -/
def intOnChangeOnly : Bool := false

/-- Step 5: does input `id` raise the line of `mask`. By the conflict's choice the mask bit alone decides (R155, C2); the
levels before and after matter only under the switch `intOnChangeOnly`. -/
def maskSelects (mask : Byte) (id : Fin 4) (old new : Bool) : Bool :=
  getBit mask id.val && (!intOnChangeOnly || old != new)

end Sys2Proof.Machine
end

