-- ==== Sys2Proof/Machine/State.lean ====
section
/-! DEFINITION. The state of the block as plain data (spec 10_state.md R20, R36 to R45), the reasons an operation is
refused (60_exceptions.md R182), and the state after reset (10_state.md R49, 70_reset_and_hazards.md R210). -/

namespace Sys2Proof.Machine

/-- The ten registers by name, in address order (R21). -/
inductive Reg where
  | slaveAddr | status | direction | reserved | speed0
  | speed1 | inopts0 | inopts1 | intMask0 | intMask1
deriving DecidableEq, Repr

/-- An effect on a hardware capability, as the rules emit it (R42). -/
inductive Effect where
  /-- `BusReinit(a)`: the bus engine is reinitialised with address `a` (R132). -/
  | busReinit (a : Byte)
  /-- `SetDirPin(i, level)`. -/
  | setDirPin (i : Fin 4) (level : Bool)
  /-- `EnablePwm(c, en)`. -/
  | enablePwm (c : Fin 2) (en : Bool)
  /-- `SetPwmDuty(c, d)`. -/
  | setPwmDuty (c : Fin 2) (d : Byte)
  /-- `SetPullup(i, en)`. -/
  | setPullup (i : Fin 4) (en : Bool)
  /-- `SetIntLine(k, asserted)`. -/
  | setIntLine (k : Fin 2) (asserted : Bool)
  /-- `NvLoad`: the storage block is read (R165). -/
  | nvLoad
  /-- `NvStore(b)`: the storage block is written (R172). -/
  | nvStore (b : RegBank)
deriving DecidableEq, Repr

/-- Where the block is in its power cycle (R214). -/
inductive Phase where
  /-- Power is applied and `RESTORE` has not run: only `RESTORE` is admitted. -/
  | startup
  /-- `RESTORE` has run: every operation but `RESTORE` is admitted. -/
  | running
deriving DecidableEq, Repr

/-- What the outside presents to the block. DESIGN CHOICE (log 1, log 21). Safe. -/
inductive Stimulus where
  /-- An agent requests the operation of a descriptor (R90, R93). -/
  | request (w : Descriptor)
  /-- Power is removed and applied again (R170, R213). -/
  | powerCycle
deriving DecidableEq, Repr

/-- The state of the block (R20) with the model's own fields `rdata`, `pending` and `freeIx`. -/
structure State where
  /-- `bank[0..9]` (R21 to R35). -/
  bank : RegBank
  /-- The output latches (R36 to R41). -/
  out : Latches
  /-- A commit was requested and has not been flushed (R43). -/
  dirty : Bool
  /-- The snapshot a flush in progress is writing, or empty (R44). -/
  flushBuf : Option RegBank
  /-- The storage block (R45). -/
  nv : RegBank
  /-- Has `RESTORE` run in this power cycle (R214). -/
  phase : Phase
  /-- The effect trace, oldest first; no rule reads it (R42). -/
  fx : List Effect
  /-- The model's own: the byte the last `RD` returned to the bus engine (R90, R120). DESIGN CHOICE (log 5);
  its value at reset is unsafe. -/
  rdata : Byte
  /-- The model's own: what the outside presents, first taken first (R52). DESIGN CHOICE (log 1). Safe. -/
  pending : List Stimulus
  /-- The model's own: where the next free values are drawn. DESIGN CHOICE (log 7). Safe. -/
  freeIx : Nat
deriving DecidableEq, Repr

/-- The block reports no fault on any operation: "There is no exception/error-return taxonomy" (R180, R182). Nobody raises
one, so the type is empty. DEDUCED (log 22). Safe. -/
inductive Fault where
deriving DecidableEq, Repr

/-- Why an operation is not taken (R182). -/
inductive Refusal where
  /-- Raised by `exec` for an operation with no meaning yet. Safe. -/
  | notModelled (mnemonic : String)
  /-- Raised by every operation but `RESTORE` before `RESTORE` has run (R214). Safe: the model says nothing there (log 11). -/
  | beforeRestore
  /-- Raised by a second `RESTORE` without a power cycle (R214). Safe (log 11). -/
  | restoreAlreadyRun
  /-- Raised by `FLUSH_BEGIN` unless `dirty` is 1 and `flush_buf` is empty (R171). Safe (log 11). -/
  | flushBeginNotEnabled
  /-- Raised by `FLUSH_END` when `flush_buf` is empty (R172). Safe (log 11). -/
  | flushEndNotEnabled
  /-- Raised by `step` on a descriptor that is no operation (R96, R104). Safe (log 12). -/
  | notAnOperation (e : DecodeError)
deriving DecidableEq, Repr

/-- Ten zero bytes: the storage image that `State.reset` names for the OPEN `NV_INIT`. DESIGN CHOICE (log 3). Unsafe. -/
def zeroImage : RegBank :=
  { slaveAddr := 0, status := 0, direction := 0, reserved := 0, speed0 := 0,
    speed1 := 0, inopts0 := 0, inopts1 := 0, intMask0 := 0, intMask1 := 0 }

/-- Every output latch 0: what R49 gives for the image `zeroImage`, and for the two stale duties, which R49 leaves
unspecified, the value the model names. DESIGN CHOICE (log 3, log 4). Unsafe. -/
def zeroLatches : Latches :=
  { dirPin := 0, pwmEn := 0, pwmDuty0 := 0, pwmDuty1 := 0, pullup := 0, intLine := 0, busAddr := 0 }

/-- The effects of a `RESTORE` of `zeroImage`, in the order of R165 and of the handlers (R132 to R139). -/
def zeroRestoreFx : List Effect :=
  [.nvLoad, .busReinit 0, .setIntLine 0 false, .setIntLine 1 false,
   .setDirPin 0 false, .setDirPin 1 false, .setDirPin 2 false, .setDirPin 3 false,
   .enablePwm 0 false, .enablePwm 1 false,
   .setPullup 0 false, .setPullup 1 false, .setPullup 2 false, .setPullup 3 false]

/-- The state right after reset. "Reset consists of running `RESTORE`" (R210), and the result is the table of R49 at the
bytes loaded; the spec leaves those OPEN and the model names `zeroImage`. DESIGN CHOICE (log 3 to log 7). Unsafe. -/
def State.reset : State :=
  { bank := zeroImage
    out := zeroLatches
    dirty := false
    flushBuf := none
    nv := zeroImage
    phase := .running
    fx := zeroRestoreFx
    rdata := 0
    pending := []
    freeIx := 0 }

/-- The answer of an operation. -/
abbrev Result := Host.Outcome State Fault Refusal

end Sys2Proof.Machine
end

