-- ==== Sys2Proof/Machine/Operands.lean ====
section
/-! DEFINITION. How operands select registers and bits: register names and addresses (spec 10_state.md R12, R21),
input indexes (30_encoding.md R99, R100), option bits (00_scope.md R8), and which agent presents an operation
(60_exceptions.md R196). -/

namespace Sys2Proof.Machine

/-- The registers in ascending address order, as `RESTORE` visits them (R165). -/
def Reg.all : List Reg :=
  [.slaveAddr, .status, .direction, .reserved, .speed0, .speed1, .inopts0, .inopts1, .intMask0, .intMask1]

/-- The bus address of a register (R21). -/
def Reg.addr : Reg → RegAddr
  | .slaveAddr => 0
  | .status => 1
  | .direction => 2
  | .reserved => 3
  | .speed0 => 4
  | .speed1 => 5
  | .inopts0 => 6
  | .inopts1 => 7
  | .intMask0 => 8
  | .intMask1 => 9

/-- The register at a bus address, none when `addr >= N` (R71, R72). -/
def Reg.ofAddr (a : RegAddr) : Option Reg :=
  match a.toNat with
  | 0 => some .slaveAddr
  | 1 => some .status
  | 2 => some .direction
  | 3 => some .reserved
  | 4 => some .speed0
  | 5 => some .speed1
  | 6 => some .inopts0
  | 7 => some .inopts1
  | 8 => some .intMask0
  | 9 => some .intMask1
  | _ => none

/-- `bank[a]` (R12). -/
def bankGet (b : RegBank) : Reg → Byte
  | .slaveAddr => b.slaveAddr
  | .status => b.status
  | .direction => b.direction
  | .reserved => b.reserved
  | .speed0 => b.speed0
  | .speed1 => b.speed1
  | .inopts0 => b.inopts0
  | .inopts1 => b.inopts1
  | .intMask0 => b.intMask0
  | .intMask1 => b.intMask1

/-- `bank[a] <- v` on the ten bytes (R12, R121). -/
def bankSet (b : RegBank) (r : Reg) (v : Byte) : RegBank :=
  match r with
  | .slaveAddr => { b with slaveAddr := v }
  | .status => { b with status := v }
  | .direction => { b with direction := v }
  | .reserved => { b with reserved := v }
  | .speed0 => { b with speed0 := v }
  | .speed1 => { b with speed1 := v }
  | .inopts0 => { b with inopts0 := v }
  | .inopts1 => { b with inopts1 := v }
  | .intMask0 => { b with intMask0 := v }
  | .intMask1 => { b with intMask1 := v }

/-- `speed[c]` (R12). -/
def speedOf (b : RegBank) (c : Fin 2) : Byte := if c = 0 then b.speed0 else b.speed1

/-- `inopts[m]` (R12). -/
def inoptsOf (b : RegBank) (m : Fin 2) : Byte := if m = 0 then b.inopts0 else b.inopts1

/-- `int_mask[k]` (R12). -/
def intMaskOf (b : RegBank) (k : Fin 2) : Byte := if k = 0 then b.intMask0 else b.intMask1

/-- `pwm_duty[c]` (R38). -/
def pwmDutyOf (o : Latches) (c : Fin 2) : Byte := if c = 0 then o.pwmDuty0 else o.pwmDuty1

/-- The motor of an input, `inputId >> 1` (R99). -/
def inputMotor (id : Fin 4) : Fin 2 := ⟨id.val / 2, by omega⟩

/-- The index of an input within its motor, `inputId & 1` (R99). -/
def inputIndex (id : Fin 4) : Fin 2 := ⟨id.val % 2, by omega⟩

/-- The input `2m+j` (R34). -/
def inputOf (m j : Fin 2) : Fin 4 := ⟨2 * m.val + j.val, by omega⟩

/-- `INOPT_PULLUP_BIT(j)` (R8, R34, decision D2, log 14). -/
def pullupBit (j : Fin 2) : Nat := j.val

/-- `INOPT_INVERT_BIT(j)` (R8, R34, decision D2, log 14). -/
def invertBit (j : Fin 2) : Nat := 2 + j.val

/-- `INOPT_LIMIT_BIT(j)` (R8, R34, decision D2, log 14). -/
def limitBit (j : Fin 2) : Nat := 4 + j.val

/-- The invert option of an input (R100, R152). -/
def inverted (b : RegBank) (id : Fin 4) : Bool :=
  getBit (inoptsOf b (inputMotor id)) (invertBit (inputIndex id))

/-- The limit-cutoff option of an input (R100, R154). -/
def limitEnabled (b : RegBank) (id : Fin 4) : Bool :=
  getBit (inoptsOf b (inputMotor id)) (limitBit (inputIndex id))

/-- The pull-up option of an input (R39, R100). -/
def pullupEnabled (b : RegBank) (id : Fin 4) : Bool :=
  getBit (inoptsOf b (inputMotor id)) (pullupBit (inputIndex id))

/-- The agent that presents an operation (R196). -/
def presenter : Instr → Agent
  | .rd _ => .busEngine
  | .wrSlaveAddr _ => .busEngine
  | .wrStatus _ => .busEngine
  | .wrDirection _ => .busEngine
  | .wrReserved _ => .busEngine
  | .wrSpeed0 _ => .busEngine
  | .wrSpeed1 _ => .busEngine
  | .wrInopts0 _ => .busEngine
  | .wrInopts1 _ => .busEngine
  | .wrIntmask0 _ => .busEngine
  | .wrIntmask1 _ => .busEngine
  | .wrCommit _ => .busEngine
  | .wrNop _ _ => .busEngine
  | .pinchg _ => .pinChangeDetector
  | .flushBegin => .backgroundLoop
  | .flushEnd => .backgroundLoop
  | .restore => .startupCode

end Sys2Proof.Machine
end

