-- ==== Sys2Proof/Machine/Ops.lean ====
section
/-! DEFINITION. The named operations over the state: reading and raw-writing registers (spec
40_regbank_fieldcodec.md R120, R121), driving the latches with the effect each emits (10_state.md R36 to R42),
raising and releasing an interrupt line (60_exceptions.md R188, R193), the storage port (43_persistence.md
R176), admission (70_reset_and_hazards.md R214) and the power cycle (43_persistence.md R170).

The block takes no exception and returns from none (60_exceptions.md R180, R184, R195): `raiseLine` and
`releaseLine` are what the spec has in their place. -/

namespace Sys2Proof.Machine

/-- `emit E` (R13, R42). -/
def emit (e : Effect) (s : State) : State := { s with fx := s.fx ++ [e] }

/-- The byte a bus read of `addr` returns: 0 when `addr >= N`, else `bank[addr]` (R120, R72). -/
def busRead (addr : RegAddr) (s : State) : Byte :=
  match Reg.ofAddr addr with
  | some r => bankGet s.bank r
  | none => 0

/-- `rawWrite(addr, byte)`: replaces the whole byte and does nothing else (R121, R122). -/
def rawWrite (r : Reg) (v : Byte) (s : State) : State := { s with bank := bankSet s.bank r v }

/-- Reinitialise the bus engine with `a` (R41, R132). -/
def reinitBus (a : Byte) (s : State) : State :=
  emit (.busReinit a) { s with out := { s.out with busAddr := a } }

/-- The effects of driving all four direction pins from `c` (R134). -/
def dirPinFx (c : Byte) : List Effect :=
  [.setDirPin 0 (getBit c 0), .setDirPin 1 (getBit c 1), .setDirPin 2 (getBit c 2), .setDirPin 3 (getBit c 3)]

/-- Drive all four direction pins from bits 3:0 of `c` (R36, R134). -/
def driveDirPins (c : Byte) (s : State) : State :=
  { s with out := { s.out with dirPin := c.setWidth 4 }, fx := s.fx ++ dirPinFx c }

/-- `pwm_en[c] <- en` (R37). -/
def enablePwm (c : Fin 2) (en : Bool) (s : State) : State :=
  emit (.enablePwm c en) { s with out := { s.out with pwmEn := setBit s.out.pwmEn c.val en } }

/-- `pwm_duty[c] <- d` (R38). -/
def setPwmDuty (c : Fin 2) (d : Byte) (s : State) : State :=
  emit (.setPwmDuty c d)
    (if c = 0 then { s with out := { s.out with pwmDuty0 := d } }
     else { s with out := { s.out with pwmDuty1 := d } })

/-- `pullup[i] <- en` (R39). -/
def setPullup (i : Fin 4) (en : Bool) (s : State) : State :=
  emit (.setPullup i en) { s with out := { s.out with pullup := setBit s.out.pullup i.val en } }

/-- `int_line[k] <- asserted` (R40). -/
def setIntLine (k : Fin 2) (asserted : Bool) (s : State) : State :=
  emit (.setIntLine k asserted) { s with out := { s.out with intLine := setBit s.out.intLine k.val asserted } }

/-- Raise interrupt line `k`: set its flag in `status` and assert the line, and record nothing else (R155, R193). -/
def raiseLine (k : Fin 2) (s : State) : State :=
  setIntLine k true (rawWrite .status (setBit s.bank.status (intFlagBit k) true) s)

/-- The line half of an acknowledge: release line `k` when the written byte has its flag bit 0 (R133, R188). -/
def releaseLine (incoming : Byte) (k : Fin 2) (s : State) : State :=
  if releasesLine incoming k then setIntLine k false s else s

/-- `NvLoad()`: the ten bytes of the storage block; it never fails (R13, R176). -/
def nvLoad (s : State) : RegBank × State := (s.nv, emit .nvLoad s)

/-- `NvStore(b)`: replaces the ten bytes of the storage block; it never fails (R13, R176). -/
def nvStore (b : RegBank) (s : State) : State := emit (.nvStore b) { s with nv := b }

/-- An operation that is admitted after `RESTORE` and always completes (R145, R214). -/
def whenRunning (s : State) (f : State → State) : Result :=
  match s.phase with
  | .running => .next (f s)
  | .startup => .refused .beforeRestore

/-- A power cycle: every piece of state but `nv` becomes unspecified and `RESTORE` must run next; when a flush was in
progress `nv` is unspecified too (R50, R170, R213, R233). The unspecified values are drawn at `freeIx`. The trace and the
pending list are the model's records and stay. DESIGN CHOICE (log 6, log 7, log 9, log 21). Safe. -/
def powerCycle (s : State) : State :=
  { bank := Config.porBank s.freeIx
    out := Config.porOut s.freeIx
    dirty := Config.porDirty s.freeIx
    flushBuf := Config.porFlushBuf s.freeIx
    nv := if s.phase = .running ∧ s.flushBuf.isSome then Config.nvAfterLoss s.freeIx else s.nv
    phase := .startup
    fx := s.fx
    rdata := Config.porRdata s.freeIx
    pending := s.pending
    freeIx := s.freeIx + 1 }

/-- What the block's own agents present when the outside presents nothing: the startup code runs `RESTORE` (R170, R196);
the background loop takes the flush step that is enabled (R171, R172, R174); otherwise nobody has anything to do.
DESIGN CHOICE (log 10). Safe. -/
def ownOperation (s : State) : Option Instr :=
  match s.phase with
  | .startup => some .restore
  | .running =>
    if s.flushBuf.isSome then some .flushEnd
    else if s.dirty then some .flushBegin
    else none

end Sys2Proof.Machine
end

