-- ==== Sys2Proof/Machine/BusRead.lean ====
section
/-! DEFINITION. The bus read (spec 40_regbank_fieldcodec.md R120). -/

namespace Sys2Proof.Machine

/-- `RD addr`: the byte is returned on the read port; no state of the block is written (R120, R69). -/
def execRd (addr : RegAddr) (s : State) : Result :=
  whenRunning s fun s => { s with rdata := busRead addr s }

end Sys2Proof.Machine
end

