-- ==== Sys2Proof/Machine/InputSampler.lean ====
section
/-! DEFINITION. The pin-change operation: synchroniser, limit cutoff, interrupt-mask selector (spec 42_input_sampler.md
R150 to R156). -/

namespace Sys2Proof.Machine

/-- Steps 1 and 2: the level of input `id` after its optional inversion (R152). -/
def inputLevel (p : Pins) (id : Fin 4) (s : State) : Bool :=
  getBit p id.val ^^ inverted s.bank id

/-- Step 3: write the level into status bit `id` (R153). -/
def recordLevel (id : Fin 4) (lvl : Bool) (s : State) : State :=
  rawWrite .status (setBit s.bank.status id.val lvl) s

/-- The condition of the limit cutoff: active, cutoff-enabled, and the direction bit is set (R154). -/
def cutsOff (id : Fin 4) (lvl : Bool) (s : State) : Bool :=
  lvl && limitEnabled s.bank id && getBit s.bank.direction id.val

/-- Step 4: clear that direction bit and drive all four direction pins (R154). -/
def limitCutoff (id : Fin 4) (lvl : Bool) (s : State) : State :=
  if cutsOff id lvl s then
    driveDirPins (setBit s.bank.direction id.val false)
      (rawWrite .direction (setBit s.bank.direction id.val false) s)
  else s

/-- Step 5 for line `k` (R155). -/
def selectLine (k : Fin 2) (id : Fin 4) (old new : Bool) (s : State) : State :=
  if maskSelects (intMaskOf s.bank k) id old new then raiseLine k s else s

/-- The five steps for one input (R150). -/
def sampleInput (p : Pins) (id : Fin 4) (s : State) : State :=
  let old := getBit s.bank.status id.val
  let lvl := inputLevel p id s
  selectLine 1 id old lvl (selectLine 0 id old lvl (limitCutoff id lvl (recordLevel id lvl s)))

/-- All four inputs, in the fixed order 0, 1, 2, 3 (R150, R156). -/
def sampleAll (p : Pins) (s : State) : State :=
  sampleInput p 3 (sampleInput p 2 (sampleInput p 1 (sampleInput p 0 s)))

/-- `PINCHG p` (R150). -/
def execPinchg (p : Pins) (s : State) : Result := whenRunning s (sampleAll p)

end Sys2Proof.Machine
end

