-- ==== Sys2Proof/Machine/BusWrite.lean ====
section
/-! DEFINITION. The bus write: one handler per register and the commit of its result (spec 41_write_handlers.md R130 to
R143). A handler takes the incoming byte and the state before the commit; it answers the state with its latches driven
and the byte to commit (R131). -/

namespace Sys2Proof.Machine

/-- Handler of `slave_addr` (R132). -/
def handleSlaveAddr (v : Byte) (s : State) : State × Byte := (reinitBus v s, v)

/-- Handler of `status` (R133). -/
def handleStatus (v : Byte) (s : State) : State × Byte :=
  (releaseLine v 1 (releaseLine v 0 s), committedStatus v s.bank.status)

/-- Handler of `direction` (R134). -/
def handleDirection (v : Byte) (s : State) : State × Byte :=
  (driveDirPins (v &&& 0x0F#8) s, v &&& 0x0F#8)

/-- Handler of `reserved` (R135). -/
def handleReserved (_v : Byte) (s : State) : State × Byte := (s, 0)

/-- The PWM side of a speed write on channel `c`: 0 disables and leaves the duty (R136, R137, R38). -/
def driveSpeed (c : Fin 2) (v : Byte) (s : State) : State :=
  if v = 0#8 then enablePwm c false s else setPwmDuty c v (enablePwm c true s)

/-- Handler of `speed[0]` (R136). -/
def handleSpeed0 (v : Byte) (s : State) : State × Byte := (driveSpeed 0 v s, v)

/-- Handler of `speed[1]` (R137). -/
def handleSpeed1 (v : Byte) (s : State) : State × Byte := (driveSpeed 1 v s, v)

/-- The pull-ups of motor `m`'s two inputs (R138, R139). -/
def drivePullups (m : Fin 2) (v : Byte) (s : State) : State :=
  setPullup (inputOf m 1) (getBit v (pullupBit 1)) (setPullup (inputOf m 0) (getBit v (pullupBit 0)) s)

/-- Handler of `inopts[0]` (R138). -/
def handleInopts0 (v : Byte) (s : State) : State × Byte := (drivePullups 0 v s, v)

/-- Handler of `inopts[1]` (R139). -/
def handleInopts1 (v : Byte) (s : State) : State × Byte := (drivePullups 1 v s, v)

/-- Handler of `int_mask[0]` (R140). -/
def handleIntmask0 (v : Byte) (s : State) : State × Byte := (s, v)

/-- Handler of `int_mask[1]` (R141). -/
def handleIntmask1 (v : Byte) (s : State) : State × Byte := (s, v)

/-- The dispatch table: exactly one handler per register (R52, R97). -/
def handler : Reg → Byte → State → State × Byte
  | .slaveAddr => handleSlaveAddr
  | .status => handleStatus
  | .direction => handleDirection
  | .reserved => handleReserved
  | .speed0 => handleSpeed0
  | .speed1 => handleSpeed1
  | .inopts0 => handleInopts0
  | .inopts1 => handleInopts1
  | .intMask0 => handleIntmask0
  | .intMask1 => handleIntmask1

/-- A write of register `r`: the handler runs, then its result is committed (R130, R131). -/
def writeReg (r : Reg) (v : Byte) (s : State) : State :=
  rawWrite r (handler r v s).2 (handler r v s).1

/-- `WR.SLAVE_ADDR` (R132). -/
def execWrSlaveAddr (v : Byte) (s : State) : Result := whenRunning s (writeReg .slaveAddr v)

/-- `WR.STATUS` (R133). -/
def execWrStatus (v : Byte) (s : State) : Result := whenRunning s (writeReg .status v)

/-- `WR.DIRECTION` (R134). -/
def execWrDirection (v : Byte) (s : State) : Result := whenRunning s (writeReg .direction v)

/-- `WR.RESERVED` (R135). -/
def execWrReserved (v : Byte) (s : State) : Result := whenRunning s (writeReg .reserved v)

/-- `WR.SPEED0` (R136). -/
def execWrSpeed0 (v : Byte) (s : State) : Result := whenRunning s (writeReg .speed0 v)

/-- `WR.SPEED1` (R137). -/
def execWrSpeed1 (v : Byte) (s : State) : Result := whenRunning s (writeReg .speed1 v)

/-- `WR.INOPTS0` (R138). -/
def execWrInopts0 (v : Byte) (s : State) : Result := whenRunning s (writeReg .inopts0 v)

/-- `WR.INOPTS1` (R139). -/
def execWrInopts1 (v : Byte) (s : State) : Result := whenRunning s (writeReg .inopts1 v)

/-- `WR.INTMASK0` (R140). -/
def execWrIntmask0 (v : Byte) (s : State) : Result := whenRunning s (writeReg .intMask0 v)

/-- `WR.INTMASK1` (R141). -/
def execWrIntmask1 (v : Byte) (s : State) : Result := whenRunning s (writeReg .intMask1 v)

/-- `WR.COMMIT`: the data byte is ignored (R143). -/
def execWrCommit (_v : Byte) (s : State) : Result := whenRunning s fun s => { s with dirty := true }

/-- `WR.NOP`: no state is read or written (R142). -/
def execWrNop (_addr : RegAddr) (_v : Byte) (s : State) : Result := whenRunning s fun s => s

end Sys2Proof.Machine
end

