-- ==== Sys2Proof/Machine/Persistence.lean ====
section
/-! DEFINITION. Restore at startup and the background flush (spec 43_persistence.md R165 to R172). -/

namespace Sys2Proof.Machine

/-- The bytes that reach the bank: the stored ones, or `DEFAULT_BANK` when storage is blank (R166). -/
def loadedBank (l : RegBank) : RegBank := if Config.isBlank l then Config.defaultBank else l

/-- The load step: all ten registers are raw-written, no handler runs (R165). -/
def loadBank (s : State) : State :=
  { (nvLoad s).2 with bank := loadedBank (nvLoad s).1 }

/-- The replay: each register's handler runs on its loaded value, in ascending order, and its result is stored (R165,
decision D8, log 16). -/
def replay (s : State) : State := Reg.all.foldl (fun t r => writeReg r (bankGet t.bank r) t) s

/-- Load, replay, and start with no commit pending and no flush in progress (R165, R167). -/
def restoreAll (s : State) : State :=
  { replay (loadBank s) with dirty := false, flushBuf := none, phase := .running }

/-- `RESTORE`: the first operation of a power cycle, once (R165, R214). -/
def execRestore (s : State) : Result :=
  match s.phase with
  | .startup => .next (restoreAll s)
  | .running => .refused .restoreAlreadyRun

/-- `FLUSH_BEGIN`: one atomic copy of the bank, when `dirty` is 1 and no flush is in progress (R171). -/
def execFlushBegin (s : State) : Result :=
  match s.phase with
  | .startup => .refused .beforeRestore
  | .running =>
    if s.dirty && s.flushBuf.isNone then .next { s with flushBuf := some s.bank }
    else .refused .flushBeginNotEnabled

/-- `FLUSH_END`: store the snapshot and clear `dirty`, whoever set it since (R172). -/
def execFlushEnd (s : State) : Result :=
  match s.phase with
  | .startup => .refused .beforeRestore
  | .running =>
    match s.flushBuf with
    | some b => .next { nvStore b s with flushBuf := none, dirty := false }
    | none => .refused .flushEndNotEnabled

end Sys2Proof.Machine
end

