-- ==== Sys2Proof/Machine/Dispatch.lean ====
section
/-! DEFINITION. The meaning of each operation (spec 30_encoding.md R101). -/

namespace Sys2Proof.Machine

def exec (i : Instr) (s : State) : Host.Outcome State Fault Refusal :=
  match i with
  | .rd addr => Sys2Proof.Machine.execRd addr s
  | .wrSlaveAddr data => Sys2Proof.Machine.execWrSlaveAddr data s
  | .wrStatus data => Sys2Proof.Machine.execWrStatus data s
  | .wrDirection data => Sys2Proof.Machine.execWrDirection data s
  | .wrReserved data => Sys2Proof.Machine.execWrReserved data s
  | .wrSpeed0 data => Sys2Proof.Machine.execWrSpeed0 data s
  | .wrSpeed1 data => Sys2Proof.Machine.execWrSpeed1 data s
  | .wrInopts0 data => Sys2Proof.Machine.execWrInopts0 data s
  | .wrInopts1 data => Sys2Proof.Machine.execWrInopts1 data s
  | .wrIntmask0 data => Sys2Proof.Machine.execWrIntmask0 data s
  | .wrIntmask1 data => Sys2Proof.Machine.execWrIntmask1 data s
  | .wrCommit data => Sys2Proof.Machine.execWrCommit data s
  | .wrNop addr data => Sys2Proof.Machine.execWrNop addr data s
  | .pinchg pin => Sys2Proof.Machine.execPinchg pin s
  | .flushBegin => Sys2Proof.Machine.execFlushBegin s
  | .flushEnd => Sys2Proof.Machine.execFlushEnd s
  | .restore => Sys2Proof.Machine.execRestore s

end Sys2Proof.Machine
end

