-- ==== Sys2Proof/Machine/Step.lean ====
section
/-! DEFINITION. One step: the next thing presented to the block (spec 20_memory.md R76, 60_exceptions.md R196). -/

namespace Sys2Proof.Machine

/-- The operation that nobody outside presented: what the block's own agents do when nothing is pending (R174, R196). -/
def stepIdle (s : State) : Result :=
  match ownOperation s with
  | some i => exec i s
  | none => .next s

/-- A request: decode its descriptor and run the operation (R96). -/
def stepRequest (w : Descriptor) (s : State) : Result :=
  match decode w with
  | .ok i => exec i s
  | .error e => .refused (.notAnOperation e)

/-- One atomic transition (R76): the head of `pending` is taken; with nothing pending the block's own agents act
(log 1, log 10). -/
def step (s : State) : Host.Outcome State Fault Refusal :=
  match s.pending with
  | [] => stepIdle s
  | .powerCycle :: rest => .next (powerCycle { s with pending := rest })
  | .request w :: rest => stepRequest w { s with pending := rest }

/-- `s` changed so far that the block admits operation `i`: before `RESTORE` for `RESTORE`, after it for the rest (R214), and
with the flush step enabled for a flush step (R171, R172). DESIGN CHOICE (log 2). -/
def admitting (i : Instr) (s : State) : State :=
  match presenter i with
  | .startupCode => { s with phase := .startup }
  | .busEngine => { s with phase := .running }
  | .pinChangeDetector => { s with phase := .running }
  | .backgroundLoop =>
    if i = .flushBegin then { s with phase := .running, dirty := true, flushBuf := none }
    else { s with phase := .running, dirty := true, flushBuf := some (s.flushBuf.getD s.bank) }

/-- `admitting` for the operation of a descriptor; a word that is no operation changes nothing. -/
def admittingWord (w : Descriptor) (s : State) : State :=
  match decode w with
  | .ok i => admitting i s
  | .error _ => s

/-- `s` with the descriptor of a table word presented first, and with what its operation needs to be admitted. DESIGN CHOICE
(log 2). -/
def State.withFetchWord (s : State) (nbits w : Nat) : State :=
  { admittingWord (descriptorOfWord nbits w) s with pending := .request (descriptorOfWord nbits w) :: s.pending }

end Sys2Proof.Machine
end

