-- ==== Sys2Proof/Safety.lean ====
section
/-! DEFINITION. The terms claims are stated in: the invariants the spec gives the state (spec 10_state.md R29, R48), which
operations are admitted (60_exceptions.md R182, R196), and runs of operations. -/

namespace Sys2Proof.Machine

/-- What `RESTORE` establishes and every later operation keeps (R48). -/
structure Consistent (s : State) : Prop where
  /-- `reserved == 0`. -/
  reserved_zero : s.bank.reserved = 0#8
  /-- `direction & 0xF0 == 0`. -/
  direction_low : s.bank.direction &&& 0xF0#8 = 0#8
  /-- `dir_pin[i] == direction[i]`. -/
  dir_pins : ∀ i : Fin 4, getBit s.out.dirPin i.val = getBit s.bank.direction i.val
  /-- `pwm_en[c] == (speed[c] != 0)`. -/
  pwm_en : ∀ c : Fin 2, getBit s.out.pwmEn c.val = (speedOf s.bank c != 0#8)
  /-- An enabled channel's duty is its speed. -/
  pwm_duty : ∀ c : Fin 2, getBit s.out.pwmEn c.val = true → pwmDutyOf s.out c = speedOf s.bank c
  /-- `pullup[2m+j] == inopts[m][INOPT_PULLUP_BIT(j)]`. -/
  pullups : ∀ m j : Fin 2, getBit s.out.pullup (inputOf m j).val = getBit (inoptsOf s.bank m) (pullupBit j)
  /-- `bus_addr == slave_addr`. -/
  bus_addr : s.out.busAddr = s.bank.slaveAddr

/-- The flag of line `k` says whether the line is asserted: `int_line[k] == status[4+k]` (R29). -/
def LineMatchesFlag (k : Fin 2) (s : State) : Prop :=
  getBit s.out.intLine k.val = getBit s.bank.status (intFlagBit k)

/-- A flush in progress has its commit request still set, and its snapshot is a bank that the handlers allow
(from R44, R48, R171, R172). -/
def FlushConsistent (s : State) : Prop :=
  ∀ b, s.flushBuf = some b → s.dirty = true ∧ b.reserved = 0#8 ∧ b.direction &&& 0xF0#8 = 0#8

/-- The invariant of the block: nothing is promised before `RESTORE` (R50), the above after it. -/
def BlockInv (s : State) : Prop := s.phase = .running → Consistent s ∧ FlushConsistent s

/-- The operations that arrive as callbacks: bus requests and pin-change events (R183). -/
def isCallback (i : Instr) : Bool :=
  presenter i = .busEngine || presenter i = .pinChangeDetector

/-- The bus write of a register, as an operation (R130). -/
def writeInstr (r : Reg) (v : Byte) : Instr :=
  match r with
  | .slaveAddr => .wrSlaveAddr v
  | .status => .wrStatus v
  | .direction => .wrDirection v
  | .reserved => .wrReserved v
  | .speed0 => .wrSpeed0 v
  | .speed1 => .wrSpeed1 v
  | .inopts0 => .wrInopts0 v
  | .inopts1 => .wrInopts1 v
  | .intMask0 => .wrIntmask0 v
  | .intMask1 => .wrIntmask1 v

/-- When an operation is admitted: `RESTORE` first and once, a flush step when it is enabled, a callback at any time after
`RESTORE` (R171, R172, R182, R196, R214). -/
def Admitted (i : Instr) (s : State) : Prop :=
  match presenter i with
  | .startupCode => s.phase = .startup
  | .busEngine => s.phase = .running
  | .pinChangeDetector => s.phase = .running
  | .backgroundLoop =>
    s.phase = .running ∧
      ((i = .flushBegin ∧ s.dirty = true ∧ s.flushBuf = none) ∨ (i = .flushEnd ∧ s.flushBuf ≠ none))

/-- What `RESTORE` makes of the ten bytes it loads: the handlers' committed values (R49). -/
def sanitised (l : RegBank) : RegBank := { l with direction := l.direction &&& 0x0F#8, reserved := 0 }

/-- A list of operations in order, stopping at the first that is not taken (R76). -/
def runOps : List Instr → State → Result
  | [], s => .next s
  | i :: is, s =>
    match exec i s with
    | .next t => runOps is t
    | .fault r => .fault r
    | .refused r => .refused r

end Sys2Proof.Machine
end

