-- ==== Sys2Proof/Certificates/Slice0/Obligations.lean ====
section
/-! DEFINITION. What is claimed of the model, from the numbered rules of spec/. Each result is stated as an equation with
the next state: the fields it does not name are the ones the operation leaves as they were. The order of effects inside
one operation is not claimed (spec 92_eei_decisions.md D23): where an operation emits more than one effect, the
statement speaks of them up to permutation. -/

open Sys2Proof Sys2Proof.Machine

/-! ## Requests and descriptors -/

/-- A step takes the first pending request and runs the operation its descriptor encodes, on the state without that
request; the model's input list is log 1. (20_memory.md section 7, 30_encoding.md section 3.) -/
def Obligations.StepRunsDecodedOperation : Prop :=
  ∀ (s : State) (w : Descriptor) (rest : List Stimulus) (i : Instr),
    s.pending = .request w :: rest → decode w = .ok i →
      i.wellFormed = true ∧ step s = exec i { s with pending := rest }

/-- A descriptor that is no operation is refused by name, whatever the state (30_encoding.md section 5; log 12). -/
def Obligations.StepRefusesNonOperations : Prop :=
  ∀ (s : State) (w : Descriptor) (rest : List Stimulus) (e : DecodeError),
    s.pending = .request w :: rest → decode w = .error e → step s = .refused (.notAnOperation e)

/-- The decoding table of 95_test_vectors.md section 2.9, word by word. That 127 is the commit address is a decision of the
spec (D14, log 18). -/
def Obligations.DecodesTheSpecsWords : Prop :=
  decode 0x00100 = .ok (.rd 1) ∧ decode 0x00101 = .error .operandBitSet ∧
  decode 0x10100 = .error .zeroBitSet ∧ decode 0x20201 = .ok (.wrDirection 0x01) ∧
  decode 0x27F00 = .ok (.wrCommit 0) ∧ decode 0x27E00 = .ok (.wrNop 126 0) ∧
  decode 0x20A00 = .ok (.wrNop 10 0) ∧ decode 0x4000F = .ok (.pinchg 0b1111) ∧
  decode 0x40010 = .error .operandBitSet ∧ decode 0x40100 = .error .operandBitSet ∧
  decode 0x60000 = .ok .flushBegin ∧ decode 0x60001 = .error .operandBitSet ∧
  decode 0x80000 = .ok .flushEnd ∧ decode 0xA0000 = .ok .restore ∧
  decode 0xC0000 = .error .noSuchClass ∧ decode 0xE0000 = .error .noSuchClass

/-- Decoding the descriptor of a well-formed operation gives the operation back, at every operand value. -/
def Obligations.DecodeEncodeAgree : Prop :=
  ∀ i : Instr, i.wellFormed = true → decode (encode i) = .ok i

/-- Every operation word is the descriptor of the one operation it decodes to, and that operation is well formed. -/
def Obligations.EncodeDecodeAgree : Prop :=
  ∀ (w : Descriptor) (i : Instr), decode w = .ok i → encode i = w ∧ i.wellFormed = true

/-- A descriptor is an operation exactly when its must-be-zero bits are zero and its class exists: the conditions of the
descriptor table and of the decoder, in numbers (30_encoding.md sections 2 and 3). -/
def Obligations.DecoderAcceptsExactly : Prop :=
  ∀ w : Descriptor,
    (∃ i, decode w = .ok i) ↔
      (w.toNat / 2 ^ 16 = 0 ∧ w.toNat % 2 ^ 8 = 0) ∨
      w.toNat / 2 ^ 16 = 2 ∨
      (w.toNat / 2 ^ 4 = 4 * 2 ^ 12) ∨
      w.toNat = 6 * 2 ^ 16 ∨ w.toNat = 8 * 2 ^ 16 ∨ w.toNat = 10 * 2 ^ 16

/-- The write decoder selects by address alone: one operation per register, the commit address, and the no-op for the
rest. -/
def Obligations.WriteDecoderSelectsByAddress : Prop :=
  (∀ (r : Reg) (v : Byte), decode (packWrite r.addr v) = .ok (writeInstr r v)) ∧
  (∀ v : Byte, decode (packWrite 127 v) = .ok (.wrCommit v)) ∧
  (∀ (a : RegAddr) (v : Byte), 10 ≤ a.toNat → a ≠ 127 → decode (packWrite a v) = .ok (.wrNop a v)) ∧
  (∀ a : RegAddr, a.toNat < 10 → ∃ r : Reg, r.addr = a)

/-! ## Bus reads -/

/-- `RD`: returns `bank[addr]`, or 0 for every address from 10 on, the commit address included, and writes no state
of the block: the only field that changes is the read port. -/
def Obligations.BusReadReturnsTheByte : Prop :=
  ∀ s : State, s.phase = .running →
    (∀ r : Reg, exec (.rd r.addr) s = .next { s with rdata := bankGet s.bank r }) ∧
    (∀ a : RegAddr, 10 ≤ a.toNat → exec (.rd a) s = .next { s with rdata := 0 }) ∧
    (∀ a : RegAddr, decode (packDesc 0b000 a 0) = .ok (.rd a))

/-! ## Bus writes, one statement per register or pair -/

/-- `WR.SLAVE_ADDR`: any byte is stored unchanged and handed whole to the bus engine. -/
def Obligations.WrSlaveAddrResult : Prop :=
  ∀ (v : Byte) (s : State), s.phase = .running →
    decode (packWrite 0 v) = .ok (.wrSlaveAddr v) ∧
    exec (.wrSlaveAddr v) s = .next { s with
      bank := { s.bank with slaveAddr := v }
      out := { s.out with busAddr := v }
      fx := s.fx ++ [.busReinit v] }

/-- `WR.STATUS`: the committed byte is `(v | 0xCF) & status`, bit by bit; line `k` is released when the incoming flag
bit is 0 and is left alone otherwise, whatever the flag was. -/
def Obligations.WrStatusResult : Prop :=
  ∀ (v : Byte) (s : State), s.phase = .running →
    decode (packWrite 1 v) = .ok (.wrStatus v) ∧
    ∃ (c : Byte) (l : BitVec 2) (es : List Effect),
      exec (.wrStatus v) s = .next { s with
        bank := { s.bank with status := c }
        out := { s.out with intLine := l }
        fx := s.fx ++ es } ∧
      c = (v ||| 0xCF#8) &&& s.bank.status ∧
      (∀ i, i < 8 → i ≠ 4 → i ≠ 5 → getBit c i = getBit s.bank.status i) ∧
      (∀ i, i = 4 ∨ i = 5 → getBit c i = (getBit v i && getBit s.bank.status i)) ∧
      (∀ k : Fin 2, getBit l k.val = (getBit v (4 + k.val) && getBit s.out.intLine k.val)) ∧
      es.Perm ((if getBit v 4 then [] else [.setIntLine 0 false]) ++
        (if getBit v 5 then [] else [.setIntLine 1 false]))

/-- `WR.DIRECTION`: bits 7:4 are dropped, and all four direction pins are driven to the committed bits. -/
def Obligations.WrDirectionResult : Prop :=
  ∀ (v : Byte) (s : State), s.phase = .running →
    decode (packWrite 2 v) = .ok (.wrDirection v) ∧
    ∃ (pins : BitVec 4) (es : List Effect),
      exec (.wrDirection v) s = .next { s with
        bank := { s.bank with direction := v &&& 0x0F#8 }
        out := { s.out with dirPin := pins }
        fx := s.fx ++ es } ∧
      (∀ i : Fin 4, getBit pins i.val = getBit v i.val) ∧
      es.Perm [.setDirPin 0 (getBit v 0), .setDirPin 1 (getBit v 1), .setDirPin 2 (getBit v 2),
        .setDirPin 3 (getBit v 3)]

/-- `WR.RESERVED`: commits 0 whatever is written, and drives nothing. -/
def Obligations.WrReservedResult : Prop :=
  ∀ (v : Byte) (s : State), s.phase = .running →
    decode (packWrite 3 v) = .ok (.wrReserved v) ∧
    exec (.wrReserved v) s = .next { s with bank := { s.bank with reserved := 0 } }

/-- `WR.SPEED0` and `WR.SPEED1`: 0 disables the channel, any other value enables it with that duty; the other channel is
untouched. That a write of 0 leaves the duty latch is a decision of the spec (D13), not the source's words. -/
def Obligations.WrSpeedResults : Prop :=
  ∀ (v : Byte) (s : State), s.phase = .running →
    (∃ (en : BitVec 2) (es : List Effect),
      exec (.wrSpeed0 v) s = .next { s with
        bank := { s.bank with speed0 := v }
        out := { s.out with pwmEn := en, pwmDuty0 := if v = 0#8 then s.out.pwmDuty0 else v }
        fx := s.fx ++ es } ∧
      getBit en 0 = (v != 0#8) ∧ getBit en 1 = getBit s.out.pwmEn 1 ∧
      es.Perm (if v = 0#8 then [.enablePwm 0 false] else [.enablePwm 0 true, .setPwmDuty 0 v])) ∧
    (∃ (en : BitVec 2) (es : List Effect),
      exec (.wrSpeed1 v) s = .next { s with
        bank := { s.bank with speed1 := v }
        out := { s.out with pwmEn := en, pwmDuty1 := if v = 0#8 then s.out.pwmDuty1 else v }
        fx := s.fx ++ es } ∧
      getBit en 1 = (v != 0#8) ∧ getBit en 0 = getBit s.out.pwmEn 0 ∧
      es.Perm (if v = 0#8 then [.enablePwm 1 false] else [.enablePwm 1 true, .setPwmDuty 1 v]))

/-- `WR.INOPTS0` and `WR.INOPTS1`: stored unmodified; the two pull-ups of that motor follow the pull-up bits, the other
motor's stay. The places of the pull-up bits are a decision of the spec (D2, log 14). -/
def Obligations.WrInoptsResults : Prop :=
  ∀ (v : Byte) (s : State), s.phase = .running →
    (∃ (pu : BitVec 4) (es : List Effect),
      exec (.wrInopts0 v) s = .next { s with
        bank := { s.bank with inopts0 := v }
        out := { s.out with pullup := pu }
        fx := s.fx ++ es } ∧
      getBit pu 0 = getBit v (pullupBit 0) ∧ getBit pu 1 = getBit v (pullupBit 1) ∧
      getBit pu 2 = getBit s.out.pullup 2 ∧ getBit pu 3 = getBit s.out.pullup 3 ∧
      es.Perm [.setPullup 0 (getBit v (pullupBit 0)), .setPullup 1 (getBit v (pullupBit 1))]) ∧
    (∃ (pu : BitVec 4) (es : List Effect),
      exec (.wrInopts1 v) s = .next { s with
        bank := { s.bank with inopts1 := v }
        out := { s.out with pullup := pu }
        fx := s.fx ++ es } ∧
      getBit pu 2 = getBit v (pullupBit 0) ∧ getBit pu 3 = getBit v (pullupBit 1) ∧
      getBit pu 0 = getBit s.out.pullup 0 ∧ getBit pu 1 = getBit s.out.pullup 1 ∧
      es.Perm [.setPullup 2 (getBit v (pullupBit 0)), .setPullup 3 (getBit v (pullupBit 1))])

/-- `WR.INTMASK0` and `WR.INTMASK1`: stored unmodified with no side effect; a line already asserted and its flag stay. -/
def Obligations.WrIntmaskResults : Prop :=
  ∀ (v : Byte) (s : State), s.phase = .running →
    decode (packWrite 8 v) = .ok (.wrIntmask0 v) ∧ decode (packWrite 9 v) = .ok (.wrIntmask1 v) ∧
    exec (.wrIntmask0 v) s = .next { s with bank := { s.bank with intMask0 := v } } ∧
    exec (.wrIntmask1 v) s = .next { s with bank := { s.bank with intMask1 := v } }

/-- `WR.NOP`: a write of any address from 10 on but the commit address changes nothing at all; that the commit address is 127
is a decision of the spec (D14, log 18). -/
def Obligations.WrNopChangesNothing : Prop :=
  ∀ (a : RegAddr) (v : Byte) (s : State), 10 ≤ a.toNat → a ≠ 127 → s.phase = .running →
    decode (packWrite a v) = .ok (.wrNop a v) ∧ exec (.wrNop a v) s = .next s

/-- `WR.COMMIT`: sets the dirty flag, ignores the data and writes nothing else; that the address is 127 is a decision of
the spec (D14, log 18). -/
def Obligations.WrCommitSetsDirty : Prop :=
  ∀ (v : Byte) (s : State), s.phase = .running →
    decode (packWrite 127 v) = .ok (.wrCommit v) ∧
    exec (.wrCommit v) s = .next { s with dirty := true }

/-! ## Properties of the bus side -/

/-- No bus operation sets a status bit, and none but the two interrupt flags can be cleared by one; a write of `status`
with flag bit `k` clear always clears that flag. -/
def Obligations.StatusIsReadOnlyOnTheBus : Prop :=
  ∀ (i : Instr) (s t : State), presenter i = .busEngine → exec i s = .next t →
    (∀ j, j < 8 → j ≠ 4 → j ≠ 5 → getBit t.bank.status j = getBit s.bank.status j) ∧
    (∀ j, j = 4 ∨ j = 5 → getBit t.bank.status j = true → getBit s.bank.status j = true) ∧
    (∀ (v : Byte) (j : Nat), i = .wrStatus v → j = 4 ∨ j = 5 → getBit v j = false → getBit t.bank.status j = false)

/-- The bus cannot set `direction[7:4]` nor make `reserved` non-zero. -/
def Obligations.BusKeepsForcedZeros : Prop :=
  ∀ (i : Instr) (s t : State), presenter i = .busEngine → exec i s = .next t →
    (s.bank.reserved = 0#8 → t.bank.reserved = 0#8) ∧
    (∀ j, 4 ≤ j → j < 8 → getBit t.bank.direction j = true → getBit s.bank.direction j = true)

/-- Acknowledging: a write of `status` with bit `4+k` clear completes, clears flag `k` and releases line `k`; a write with
the bit set leaves flag and line of `k` as they were, so the two lines are independent; a read of `status` clears nothing;
no bus operation sets a flag. -/
def Obligations.AcknowledgeReleasesTheLine : Prop :=
  ∀ (v : Byte) (s : State), s.phase = .running →
    ∃ t, exec (.wrStatus v) s = .next t ∧
      (∀ k : Fin 2, getBit v (4 + k.val) = false →
        getBit t.bank.status (4 + k.val) = false ∧ getBit t.out.intLine k.val = false) ∧
      (∀ k : Fin 2, getBit v (4 + k.val) = true →
        getBit t.bank.status (4 + k.val) = getBit s.bank.status (4 + k.val) ∧
        getBit t.out.intLine k.val = getBit s.out.intLine k.val) ∧
      (∃ u, exec (.rd 1) s = .next u ∧ u.bank = s.bank ∧ u.out = s.out) ∧
      (∀ (i : Instr) (u : State) (k : Fin 2), presenter i = .busEngine → exec i s = .next u →
        getBit u.bank.status (4 + k.val) = true → getBit s.bank.status (4 + k.val) = true)

/-- Writing the same byte to the same address twice leaves what writing it once leaves, and repeats the same side
effects. An inference the spec marks as its own (20_memory.md section 4, 41_write_handlers.md section 4). -/
def Obligations.RepeatedWriteIsIdempotent : Prop :=
  ∀ (a : RegAddr) (v : Byte) (s : State), s.phase = .running →
    ∃ (t : State) (es : List Effect),
      exec (decodeWrite a v) s = .next t ∧ t.fx = s.fx ++ es ∧
      exec (decodeWrite a v) t = .next { t with fx := t.fx ++ es }

/-- In a state that `RESTORE` can lead to and whose lines match their flags, writing back the byte a register holds
changes neither the bank nor any enabled output. An inference the spec marks as its own (41_write_handlers.md
section 4). -/
def Obligations.RewritingTheCommittedByteKeepsState : Prop :=
  ∀ (r : Reg) (s : State), s.phase = .running → Consistent s → (∀ k, LineMatchesFlag k s) →
    ∃ es, exec (writeInstr r (bankGet s.bank r)) s = .next { s with fx := s.fx ++ es }

/-- The bus and the sampler never see the hidden state: with any `dirty`, `flush_buf` and `nv`, a callback does the same
to the bank, the latches, the trace and the read port, and leaves `flush_buf` and `nv` alone. -/
def Obligations.HiddenStateIsInvisibleToCallbacks : Prop :=
  ∀ (i : Instr) (s t : State) (d : Bool) (f : Option RegBank) (n : RegBank),
    isCallback i = true → exec i s = .next t →
      t.flushBuf = s.flushBuf ∧ t.nv = s.nv ∧
      ∃ d', exec i { s with dirty := d, flushBuf := f, nv := n } =
        .next { t with dirty := d', flushBuf := f, nv := n }

/-! ## The input sampler -/

/-- `PINCHG` in closed form: levels into `status[3:0]`, flags set by the masks alone, `status[7:6]` kept, the direction bits
of active cutoff-enabled inputs cleared, the pins driven only if a bit was cleared, lines raised by the masks; nothing
else changes. The closed form is an inference the spec marks as its own (42_input_sampler.md section 3); that the mask
alone decides is its decision D7 (log 15). -/
def Obligations.PinChangeClosedForm : Prop :=
  ∀ (p : Pins) (s : State), s.phase = .running →
    ∃ (st dir : Byte) (pins : BitVec 4) (lines : BitVec 2) (es : List Effect),
      exec (.pinchg p) s = .next { s with
        bank := { s.bank with status := st, direction := dir }
        out := { s.out with dirPin := pins, intLine := lines }
        fx := s.fx ++ es } ∧
      (∀ id : Fin 4, getBit st id.val = (getBit p id.val ^^ inverted s.bank id)) ∧
      (∀ k : Fin 2, getBit st (4 + k.val) =
        (getBit s.bank.status (4 + k.val) || (intMaskOf s.bank k &&& 0x0F#8 != 0#8))) ∧
      (∀ j, 6 ≤ j → j < 8 → getBit st j = getBit s.bank.status j) ∧
      (∀ id : Fin 4, getBit dir id.val = (getBit s.bank.direction id.val &&
        !((getBit p id.val ^^ inverted s.bank id) && limitEnabled s.bank id))) ∧
      (∀ j, 4 ≤ j → j < 8 → getBit dir j = getBit s.bank.direction j) ∧
      (∀ i : Fin 4, getBit pins i.val =
        if dir = s.bank.direction then getBit s.out.dirPin i.val else getBit dir i.val) ∧
      (∀ k : Fin 2, getBit lines k.val =
        (getBit s.out.intLine k.val || (intMaskOf s.bank k &&& 0x0F#8 != 0#8))) ∧
      (∀ k : Fin 2, (.setIntLine k true ∈ es ↔ intMaskOf s.bank k &&& 0x0F#8 ≠ 0#8) ∧ .setIntLine k false ∉ es)

/-- The order in which the inputs are visited does not show in the bank or the latches. An inference the spec marks as its
own (42_input_sampler.md section 2). -/
def Obligations.InputOrderDoesNotMatter : Prop :=
  ∀ (p : Pins) (s : State) (order : List (Fin 4)), order.Perm [0, 1, 2, 3] →
    (order.foldl (fun t id => sampleInput p id t) s).bank = (sampleAll p s).bank ∧
    (order.foldl (fun t id => sampleInput p id t) s).out = (sampleAll p s).out

/-- Only a pin change raises an interrupt line, and only one whose mask names an input: if an operation turns a line on, or
emits its assertion, it is `PINCHG` and that line's mask has one of bits 3:0 set. -/
def Obligations.OnlyPinChangesRaiseLines : Prop :=
  ∀ (i : Instr) (s t : State) (k : Fin 2) (es : List Effect), exec i s = .next t → t.fx = s.fx ++ es →
    (getBit s.out.intLine k.val = false ∧ getBit t.out.intLine k.val = true) ∨ .setIntLine k true ∈ es →
      (∃ p, i = .pinchg p) ∧ ∃ id : Fin 4, getBit (intMaskOf s.bank k) id.val = true

/-- Every bus operation and every pin change keeps `int_line[k] == status[4+k]`. An inference the spec marks as its own
(10_state.md section 4). -/
def Obligations.CallbacksKeepLineMatchingFlag : Prop :=
  ∀ (i : Instr) (s t : State) (k : Fin 2), isCallback i = true → exec i s = .next t →
    LineMatchesFlag k s → LineMatchesFlag k t

/-- The pin-change path writes `status[5:0]` and clears bits of `direction[3:0]`, and no other register, latch or flag but
the direction pins and the lines. -/
def Obligations.PinChangeRights : Prop :=
  ∀ (p : Pins) (s : State), s.phase = .running →
    ∃ t, exec (.pinchg p) s = .next t ∧
      (∀ r : Reg, r ≠ .status → r ≠ .direction → bankGet t.bank r = bankGet s.bank r) ∧
      (∀ j, 6 ≤ j → j < 8 → getBit t.bank.status j = getBit s.bank.status j) ∧
      (∀ j, j < 8 → getBit t.bank.direction j = true → getBit s.bank.direction j = true) ∧
      (∀ j, 4 ≤ j → j < 8 → getBit t.bank.direction j = getBit s.bank.direction j) ∧
      t.out.pwmEn = s.out.pwmEn ∧ t.out.pwmDuty0 = s.out.pwmDuty0 ∧ t.out.pwmDuty1 = s.out.pwmDuty1 ∧
      t.out.pullup = s.out.pullup ∧ t.out.busAddr = s.out.busAddr ∧
      t.dirty = s.dirty ∧ t.flushBuf = s.flushBuf ∧ t.nv = s.nv

/-- The interrupt scenario: with bit 2 of `int_mask[0]` set, any pin change records the level of input 2, sets flag 0 and
asserts line 0; a following write of `status` with bit 4 clear releases the line and keeps the levels. That any pin change
raises the line, whatever its levels, is a decision of the spec (D7, log 15), and the re-raise after an acknowledge
(60_exceptions.md section 5) is an inference the spec marks as its own. -/
def Obligations.RaiseThenAcknowledge : Prop :=
  ∀ (p : Pins) (v : Byte) (s : State), s.phase = .running →
    getBit s.bank.intMask0 2 = true → getBit v 4 = false →
      ∃ t u, exec (.pinchg p) s = .next t ∧
        getBit t.bank.status 2 = (getBit p 2 ^^ inverted s.bank 2) ∧
        getBit t.bank.status 4 = true ∧ getBit t.out.intLine 0 = true ∧
        exec (.wrStatus v) t = .next u ∧
        getBit u.bank.status 4 = false ∧ getBit u.out.intLine 0 = false ∧
        (∀ id : Fin 4, getBit u.bank.status id.val = getBit t.bank.status id.val)

/-- The cutoff is no standing interlock: setting a direction bit after the cutoff drives its pin high again, and the next
pin change with the same levels cuts it off again. An inference the spec marks as its own (70_reset_and_hazards.md
section 3). -/
def Obligations.CutoffIsNotLatched : Prop :=
  ∀ (id : Fin 4) (p : Pins) (v : Byte) (s : State), s.phase = .running →
    limitEnabled s.bank id = true → (getBit p id.val ^^ inverted s.bank id) = true → getBit v id.val = true →
      ∃ t u, exec (.wrDirection v) s = .next t ∧
        getBit t.bank.direction id.val = true ∧ getBit t.out.dirPin id.val = true ∧
        exec (.pinchg p) t = .next u ∧
        getBit u.bank.direction id.val = false ∧ getBit u.out.dirPin id.val = false ∧
        u.out.pwmEn = s.out.pwmEn ∧ u.bank.speed0 = s.bank.speed0 ∧ u.bank.speed1 = s.bank.speed1

/-- The option bits of each input, in the places the spec's decision D2 gives them (30_encoding.md section 3; log 14). -/
def Obligations.InputOptionBits : Prop :=
  ∀ b : RegBank,
    (inverted b 0 = getBit b.inopts0 2 ∧ inverted b 1 = getBit b.inopts0 3 ∧
      inverted b 2 = getBit b.inopts1 2 ∧ inverted b 3 = getBit b.inopts1 3) ∧
    (limitEnabled b 0 = getBit b.inopts0 4 ∧ limitEnabled b 1 = getBit b.inopts0 5 ∧
      limitEnabled b 2 = getBit b.inopts1 4 ∧ limitEnabled b 3 = getBit b.inopts1 5) ∧
    (pullupEnabled b 0 = getBit b.inopts0 0 ∧ pullupEnabled b 1 = getBit b.inopts0 1 ∧
      pullupEnabled b 2 = getBit b.inopts1 0 ∧ pullupEnabled b 3 = getBit b.inopts1 1)

/-! ## Who writes each latch -/

/-- `dir_pin`: after a direction write, a pin change that cut off, and `RESTORE`, every pin equals its direction bit; no
other operation writes it. -/
def Obligations.DirPinWriters : Prop :=
  (∀ (v : Byte) (s t : State), exec (.wrDirection v) s = .next t →
    ∀ i : Fin 4, getBit t.out.dirPin i.val = getBit t.bank.direction i.val) ∧
  (∀ (p : Pins) (s t : State), exec (.pinchg p) s = .next t → t.bank.direction ≠ s.bank.direction →
    ∀ i : Fin 4, getBit t.out.dirPin i.val = getBit t.bank.direction i.val) ∧
  (∀ s t : State, exec .restore s = .next t →
    ∀ i : Fin 4, getBit t.out.dirPin i.val = getBit t.bank.direction i.val) ∧
  (∀ (i : Instr) (s t : State), exec i s = .next t → (∀ v, i ≠ .wrDirection v) → i ≠ .restore →
    (∀ p, i = .pinchg p → t.bank.direction = s.bank.direction) → t.out.dirPin = s.out.dirPin)

/-- `pwm_en`: after a write of `speed[c]` and after `RESTORE`, channel `c` is enabled exactly when `speed[c]` is not 0; no
other operation writes it. -/
def Obligations.PwmEnableWriters : Prop :=
  (∀ (v : Byte) (s t : State), exec (.wrSpeed0 v) s = .next t →
    getBit t.out.pwmEn 0 = (t.bank.speed0 != 0#8) ∧ getBit t.out.pwmEn 1 = getBit s.out.pwmEn 1) ∧
  (∀ (v : Byte) (s t : State), exec (.wrSpeed1 v) s = .next t →
    getBit t.out.pwmEn 1 = (t.bank.speed1 != 0#8) ∧ getBit t.out.pwmEn 0 = getBit s.out.pwmEn 0) ∧
  (∀ s t : State, exec .restore s = .next t → ∀ c : Fin 2, getBit t.out.pwmEn c.val = (speedOf t.bank c != 0#8)) ∧
  (∀ (i : Instr) (s t : State), exec i s = .next t → (∀ v, i ≠ .wrSpeed0 v) → (∀ v, i ≠ .wrSpeed1 v) →
    i ≠ .restore → t.out.pwmEn = s.out.pwmEn)

/-- `pullup`: after a write of `inopts[m]` (its two inputs) and after `RESTORE` (all four), the latch equals the pull-up
bit; no other operation writes it. -/
def Obligations.PullupWriters : Prop :=
  (∀ (v : Byte) (s t : State) (j : Fin 2), exec (.wrInopts0 v) s = .next t →
    getBit t.out.pullup (inputOf 0 j).val = getBit t.bank.inopts0 (pullupBit j) ∧
    getBit t.out.pullup (inputOf 1 j).val = getBit s.out.pullup (inputOf 1 j).val) ∧
  (∀ (v : Byte) (s t : State) (j : Fin 2), exec (.wrInopts1 v) s = .next t →
    getBit t.out.pullup (inputOf 1 j).val = getBit t.bank.inopts1 (pullupBit j) ∧
    getBit t.out.pullup (inputOf 0 j).val = getBit s.out.pullup (inputOf 0 j).val) ∧
  (∀ s t : State, exec .restore s = .next t →
    ∀ m j : Fin 2, getBit t.out.pullup (inputOf m j).val = getBit (inoptsOf t.bank m) (pullupBit j)) ∧
  (∀ (i : Instr) (s t : State), exec i s = .next t → (∀ v, i ≠ .wrInopts0 v) → (∀ v, i ≠ .wrInopts1 v) →
    i ≠ .restore → t.out.pullup = s.out.pullup)

/-! ## Restore and flush -/

/-- `RESTORE`: the reset table. With `L` the default bank when storage is blank and the stored bytes otherwise, every piece
of state takes the table's value; a line whose stored flag is 1 and the duty of a channel whose stored speed is 0 keep
their power-on value. The table rests on decisions of the spec (10_state.md section 8; D8, D9, D10, D11; log 8, log 16). -/
def Obligations.RestoreTable : Prop :=
  ∀ s : State, s.phase = .startup →
    ∃ t L, exec .restore s = .next t ∧ L = (if Config.isBlank s.nv then Config.defaultBank else s.nv) ∧
      t.bank = { L with direction := L.direction &&& 0x0F#8, reserved := 0 } ∧
      (∀ i : Fin 4, getBit t.out.dirPin i.val = getBit L.direction i.val) ∧
      (∀ c : Fin 2, getBit t.out.pwmEn c.val = (speedOf L c != 0#8)) ∧
      (∀ c : Fin 2, pwmDutyOf t.out c = if speedOf L c = 0#8 then pwmDutyOf s.out c else speedOf L c) ∧
      (∀ m j : Fin 2, getBit t.out.pullup (inputOf m j).val = getBit (inoptsOf L m) (pullupBit j)) ∧
      (∀ k : Fin 2, getBit t.out.intLine k.val =
        (getBit L.status (4 + k.val) && getBit s.out.intLine k.val)) ∧
      t.out.busAddr = L.slaveAddr ∧ t.dirty = false ∧ t.flushBuf = none ∧ t.nv = s.nv ∧
      t.phase = .running ∧ t.rdata = s.rdata ∧ t.pending = s.pending ∧ t.freeIx = s.freeIx ∧
      (∃ es, t.fx = s.fx ++ es)

/-- `FLUSH_BEGIN`: enabled exactly when `dirty` is 1 and no flush is in progress; then it copies the ten bytes and changes
nothing else, `dirty` included. The two-step shape is a decision of the spec (D12, log 23), and the name of the refusal is
the model's (log 11). -/
def Obligations.FlushBeginSnapshots : Prop :=
  ∀ s : State, s.phase = .running →
    (s.dirty = true → s.flushBuf = none → exec .flushBegin s = .next { s with flushBuf := some s.bank }) ∧
    (s.dirty = false ∨ s.flushBuf ≠ none → exec .flushBegin s = .refused .flushBeginNotEnabled)

/-- `FLUSH_END`: enabled exactly when a flush is in progress; then it stores the snapshot, empties it and clears `dirty`
unconditionally. The two-step shape is a decision of the spec (D12, log 23), and the name of the refusal is the model's
(log 11). -/
def Obligations.FlushEndStores : Prop :=
  ∀ s : State, s.phase = .running →
    (∀ b, s.flushBuf = some b → exec .flushEnd s =
      .next { s with nv := b, flushBuf := none, dirty := false, fx := s.fx ++ [.nvStore b] }) ∧
    (s.flushBuf = none → exec .flushEnd s = .refused .flushEndNotEnabled)

/-- What is stored is the bank at `FLUSH_BEGIN`: whatever callbacks run before `FLUSH_END`, a commit request among them, the
storage receives the snapshot, the bank keeps what the callbacks made of it, and no request is left pending (the lost
commit). The two-step shape is a decision of the spec (D12, log 23). -/
def Obligations.SnapshotSurvivesCallbacks : Prop :=
  ∀ (is : List Instr) (s : State), s.phase = .running → s.dirty = true → s.flushBuf = none →
    (∀ i ∈ is, isCallback i = true) →
      ∃ t u, runOps is s = .next u ∧ runOps (.flushBegin :: is ++ [.flushEnd]) s = .next t ∧
        t.nv = s.bank ∧ t.bank = u.bank ∧ t.out = u.out ∧ t.dirty = false ∧ t.flushBuf = none

/-- Round trip: when the storage holds the bank and no flush is in progress, a power cycle and the following `RESTORE` give
the same ten bytes back, unless the storage counts as blank, in which case they give the sanitised defaults. An
inference the spec marks as its own (43_persistence.md section 2), with the blank storage and the power cycle of its
section 1. It rests on the power cycle as an input of the step (the model's choice, log 21), on the open blank test and
default bank (D9, log 8) and on the replay storing the handlers' results (D8, log 16). -/
def Obligations.PowerCycleRoundTrip : Prop :=
  ∀ (s : State) (rest : List Stimulus), s.phase = .running → Consistent s → s.nv = s.bank → s.flushBuf = none →
    s.pending = .powerCycle :: .request (encode .restore) :: rest →
      ∃ t, Sys2Proof.core.run 2 s = .next t ∧ t.phase = .running ∧ t.nv = s.nv ∧
        t.bank = if Config.isBlank s.nv then sanitised Config.defaultBank else s.bank

/-- Across a power cycle `nv` survives when no flush is in progress, and only `RESTORE` is admitted next. The power cycle as
an input of the step is the model's choice (log 21). That only `RESTORE` is admitted is a decision of the spec (D4), and the
refusal `beforeRestore` of every other operation is the model's form of it (log 11). -/
def Obligations.PowerCycleKeepsStorage : Prop :=
  ∀ (s : State) (rest : List Stimulus), s.pending = .powerCycle :: rest →
    ∃ t, step s = .next t ∧ t.phase = .startup ∧ t.pending = rest ∧
      (s.flushBuf = none → t.nv = s.nv) ∧
      (∀ i, i ≠ .restore → exec i t = .refused .beforeRestore) ∧
      ∃ u, exec .restore t = .next u

/-- The storage is read by `RESTORE` only and written by `FLUSH_END` only: any other operation does the same whatever the
storage holds and leaves it alone. -/
def Obligations.StorageIsReadAndWrittenOnlyByItsOwners : Prop :=
  ∀ (i : Instr) (s t : State) (n : RegBank), i ≠ .restore → exec i s = .next t →
    (i ≠ .flushEnd → t.nv = s.nv ∧ exec i { s with nv := n } = .next { t with nv := n }) ∧
    (i = .flushEnd → exec i { s with nv := n } = .next t)

/-- The dirty flag: a commit sets it, `FLUSH_END` and `RESTORE` clear it, nothing else changes it. The value after `RESTORE`
is a decision of the spec (D10). -/
def Obligations.DirtyFlagWriters : Prop :=
  ∀ (i : Instr) (s t : State), exec i s = .next t →
    ((∃ v, i = .wrCommit v) → t.dirty = true) ∧
    (i = .flushEnd ∨ i = .restore → t.dirty = false) ∧
    ((∀ v, i ≠ .wrCommit v) → i ≠ .flushEnd → i ≠ .restore → t.dirty = s.dirty)

/-! ## The whole machine -/

/-- The machine has no fault, and an operation completes exactly when it is admitted: `RESTORE` first and once, a flush step
when it is enabled, everything else at any time after `RESTORE`. That `RESTORE` comes first and once is a decision of
the spec (D4, log 11; 70_reset_and_hazards.md section 1), and so is the two-step flush (D12, log 23). -/
def Obligations.OperationsCompleteExactlyWhenAdmitted : Prop :=
  ∀ (i : Instr) (s : State), ((∃ t, exec i s = .next t) ↔ Admitted i s) ∧ ∀ f, exec i s ≠ .fault f

/-- Every list of callbacks completes from any state after `RESTORE`, and leaves the block running. -/
def Obligations.CallbacksAlwaysComplete : Prop :=
  ∀ (is : List Instr) (s : State), s.phase = .running → (∀ i ∈ is, isCallback i = true) →
    ∃ t, runOps is s = .next t ∧ t.phase = .running

/-- The frame of every operation: no operation touches the model's inputs; only `RESTORE` changes the phase; only `RD`
changes the read port; the trace only grows, and no rule reads it. -/
def Obligations.ModelFieldsFrame : Prop :=
  ∀ (i : Instr) (s t : State), exec i s = .next t →
    t.pending = s.pending ∧ t.freeIx = s.freeIx ∧ (i ≠ .restore → t.phase = s.phase) ∧
    ((∀ a, i ≠ .rd a) → t.rdata = s.rdata) ∧
    ∃ es, t.fx = s.fx ++ es ∧ ∀ l, exec i { s with fx := l } = .next { t with fx := l ++ es }

/-- `status[7:6]` changes only at `RESTORE`. An inference the spec marks as its own (10_state.md section 4). -/
def Obligations.UnusedStatusBitsAreConstant : Prop :=
  ∀ (i : Instr) (s t : State) (j : Nat), exec i s = .next t → i ≠ .restore → 6 ≤ j → j < 8 →
    getBit t.bank.status j = getBit s.bank.status j

/-- The invariant of the block: every step, from any state that has it, leads to a state that has it; before `RESTORE` it
promises nothing. It holds the invariants of 10_state.md section 7, an inference the spec marks as its own. That a step which
runs `RESTORE` leaves `reserved` and `direction[7:4]` at 0 rests on the replay storing the handlers' results, a decision of
the spec (D8, log 16). -/
def Obligations.InvariantKeptByEveryStep : Prop :=
  ∀ s t : State, BlockInv s → step s = .next t → BlockInv t

/-- `RESTORE` establishes the invariants whatever the storage and the power-on state were: the invariants of 10_state.md
section 7, an inference the spec marks as its own. That `reserved` and `direction[7:4]` are 0 after it rests on the replay
storing the handlers' results, a decision of the spec (D8, log 16). -/
def Obligations.RestoreEstablishesTheInvariants : Prop :=
  ∀ s : State, s.phase = .startup → ∃ t, exec .restore s = .next t ∧ Consistent t ∧ FlushConsistent t ∧
    ∀ k : Fin 2, getBit t.bank.status (intFlagBit k) = false → LineMatchesFlag k t

/-- The reset state has the invariant, and both lines match their flags. The values of the reset image are the model's
choice (log 3, log 4). -/
def Obligations.ResetHasTheInvariant : Prop :=
  BlockInv State.reset ∧ (∀ k, LineMatchesFlag k State.reset) ∧ State.reset.phase = .running ∧
    State.reset.dirty = false ∧ State.reset.flushBuf = none ∧ State.reset.bank.reserved = 0#8

/-- With nothing pending, the background loop carries a commit request out in two steps, then rests. That it acts when
nothing is pending is the model's choice, one fair schedule (log 10); the two-step shape is a decision of the spec (D12,
log 23). -/
def Obligations.BackgroundLoopFlushes : Prop :=
  ∀ s : State, s.phase = .running → s.pending = [] → s.dirty = true → s.flushBuf = none →
    ∃ t, Sys2Proof.core.run 2 s = .next t ∧ t.nv = s.bank ∧ t.bank = s.bank ∧ t.out = s.out ∧
      t.dirty = false ∧ t.flushBuf = none ∧ step t = .next t

/-- With nothing pending at startup, the startup code runs `RESTORE` (the model's choice of schedule, log 10). -/
def Obligations.StartupCodeRunsRestore : Prop :=
  ∀ s : State, s.phase = .startup → s.pending = [] → step s = exec .restore s ∧ ∃ t, step s = .next t

/-! ## FieldCodec -/

/-- The laws of `getBit` and `setBit` on a byte, and their definitions. -/
def Obligations.FieldCodecLaws : Prop :=
  ∀ (b : Byte) (p q : Fin 8) (u v : Bool),
    getBit b p.val = ((b >>> p.val) &&& 1#8 == 1#8) ∧
    setBit b p.val v = ((b &&& ~~~(1#8 <<< p.val)) ||| ((if v then 1#8 else 0#8) <<< p.val)) ∧
    getBit (setBit b p.val v) p.val = v ∧
    (q ≠ p → getBit (setBit b p.val v) q.val = getBit b q.val) ∧
    setBit b p.val (getBit b p.val) = b ∧
    setBit (setBit b p.val u) p.val v = setBit b p.val v
end

