-- ==== Sys2Proof/Laws/Bits.lean ====
section
/-! SUPPORT. The laws of the bit helpers, bit by bit (spec 40_regbank_fieldcodec.md R123, R124), and of the flag
computations. -/

namespace Sys2Proof.Machine

variable {n : Nat} (b : BitVec n)

/-- A bit outside the vector reads 0. -/
theorem getBit_of_le (q : Nat) (h : n ≤ q) : getBit b q = false := by
  simp [getBit, BitVec.getLsbD_of_ge b q h]

/-- `setBit` replaces one bit and keeps every other. -/
theorem getBit_setBit (p q : Nat) (v : Bool) :
    getBit (setBit b p v) q = if q = p ∧ p < n then v else getBit b q := by
  unfold getBit setBit
  by_cases hq : q < n
  · simp only [BitVec.getLsbD_or, BitVec.getLsbD_and, BitVec.getLsbD_not, BitVec.getLsbD_shiftLeft,
      BitVec.getLsbD_setWidth, BitVec.getLsbD_ofBool, BitVec.getLsbD_one, hq, decide_true, Bool.true_and]
    by_cases hlt : q < p
    · simp [hlt, show q ≠ p by omega]
    · by_cases hpq : q = p
      · subst hpq
        have : 0 < n := by omega
        cases v <;> simp [hq, this]
      · have : q - p ≠ 0 := by omega
        simp [hlt, hpq, this]
  · have hn : n ≤ q := by omega
    rw [BitVec.getLsbD_of_ge _ q hn, BitVec.getLsbD_of_ge _ q hn]
    simp; omega

/-- Two vectors with the same bits are equal. -/
theorem eq_of_getBit (c : BitVec n) (h : ∀ i, i < n → getBit b i = getBit c i) : b = c := by
  apply BitVec.eq_of_getLsbD_eq
  intro i hi
  exact h i hi

@[simp] theorem getBit_and (c : BitVec n) (i : Nat) : getBit (b &&& c) i = (getBit b i && getBit c i) := by
  simp [getBit]

@[simp] theorem getBit_or (c : BitVec n) (i : Nat) : getBit (b ||| c) i = (getBit b i || getBit c i) := by
  simp [getBit]

@[simp] theorem getBit_setWidth (m i : Nat) : getBit (b.setWidth m) i = (decide (i < m) && getBit b i) := by
  simp [getBit]

end Sys2Proof.Machine
end

