-- ==== Sys2Proof/Laws/Decode.lean ====
section
/-! SUPPORT. The fields of a packed descriptor and what the decoder accepts, once (spec 30_encoding.md R93 to R97). -/

namespace Sys2Proof

section

variable (cls : BitVec 3) (addr : RegAddr) (data : Byte)

@[simp] theorem descCls_packDesc : descCls (packDesc cls addr data) = cls := by
  apply BitVec.eq_of_getLsbD_eq
  intro i hi
  interval_cases i <;> simp [descCls, packDesc]

@[simp] theorem descZero_packDesc : descZero (packDesc cls addr data) = false := by
  simp [descZero, packDesc]

@[simp] theorem descAddr_packDesc : descAddr (packDesc cls addr data) = addr := by
  apply BitVec.eq_of_getLsbD_eq
  intro i hi
  interval_cases i <;> simp [descAddr, packDesc]

@[simp] theorem descData_packDesc : descData (packDesc cls addr data) = data := by
  apply BitVec.eq_of_getLsbD_eq
  intro i hi
  interval_cases i <;> simp [descData, packDesc]

end

/-- A descriptor whose bit 16 is 0 is packed from its own fields. -/
theorem packDesc_fields (w : Descriptor) (h : descZero w = false) :
    packDesc (descCls w) (descAddr w) (descData w) = w := by
  apply BitVec.eq_of_getLsbD_eq
  intro i hi
  simp only [descZero] at h
  simp only [descCls, descData, descAddr, packDesc]
  interval_cases i <;> simp
  simpa using h

/-- A number read off a bit vector determines the vector. -/
theorem eq_ofNat_of_toNat {n : Nat} (b : BitVec n) (k : Nat) (h : b.toNat = k) : b = BitVec.ofNat n k := by
  rw [← h, BitVec.ofNat_toNat, BitVec.setWidth_eq]

/-- What the write decoder answers is well formed. -/
theorem decodeWrite_wellFormed (a : RegAddr) (v : Byte) : (decodeWrite a v).wellFormed = true := by
  by_cases hlt : a.toNat < 10
  · generalize hn : a.toNat = n at hlt
    rw [eq_ofNat_of_toNat a n hn]
    interval_cases n <;> rfl
  · unfold decodeWrite
    split <;> first | omega | skip
    split
    · rfl
    · next hne =>
      simp only [Instr.wellFormed, nopAddr, Config.nRegs, Bool.and_eq_true, decide_eq_true_eq, bne_iff_ne]
      exact ⟨by omega, hne⟩

/-- The classes without operands answered an operation: the operand bits are 0. -/
theorem decodeBare_eq_ok (w : Descriptor) (i j : Instr) (h : decodeBare w i = .ok j) :
    descAddr w = 0#8 ∧ descData w = 0#8 ∧ j = i := by
  unfold decodeBare at h
  split at h
  · next hd => exact ⟨hd.1, hd.2, by simpa using h.symm⟩
  · cases h

/-- Everything the decoder accepts, class by class (R94, R95). -/
theorem decode_eq_ok (w : Descriptor) (i : Instr) (h : decode w = .ok i) :
    descZero w = false ∧
    ((descCls w = 0 ∧ descData w = 0 ∧ i = .rd (descAddr w)) ∨
     (descCls w = 1 ∧ i = decodeWrite (descAddr w) (descData w)) ∨
     (descCls w = 2 ∧ descAddr w = 0 ∧ (descData w).extractLsb' 4 4 = 0#4 ∧
        i = .pinchg ((descData w).extractLsb' 0 4)) ∨
     (descCls w = 3 ∧ descAddr w = 0 ∧ descData w = 0 ∧ i = .flushBegin) ∨
     (descCls w = 4 ∧ descAddr w = 0 ∧ descData w = 0 ∧ i = .flushEnd) ∨
     (descCls w = 5 ∧ descAddr w = 0 ∧ descData w = 0 ∧ i = .restore)) := by
  unfold decode at h
  split at h
  · cases h
  · next hz =>
    refine ⟨by simpa using hz, ?_⟩
    unfold decodeClass at h
    split at h
    · next hc =>
      split at h
      · next hd => exact .inl ⟨eq_ofNat_of_toNat _ _ hc, hd, by simpa using h.symm⟩
      · cases h
    · next hc => exact .inr (.inl ⟨eq_ofNat_of_toNat _ _ hc, by simpa using h.symm⟩)
    · next hc =>
      split at h
      · next hd => exact .inr (.inr (.inl ⟨eq_ofNat_of_toNat _ _ hc, hd.1, hd.2, by simpa using h.symm⟩))
      · cases h
    · next hc =>
      exact .inr (.inr (.inr (.inl ⟨eq_ofNat_of_toNat _ _ hc, decodeBare_eq_ok w _ i h⟩)))
    · next hc =>
      exact .inr (.inr (.inr (.inr (.inl ⟨eq_ofNat_of_toNat _ _ hc, decodeBare_eq_ok w _ i h⟩))))
    · next hc =>
      exact .inr (.inr (.inr (.inr (.inr ⟨eq_ofNat_of_toNat _ _ hc, decodeBare_eq_ok w _ i h⟩))))
    · cases h

end Sys2Proof
end

