-- ==== Sys2Proof/Laws/State.lean ====
section
/-! SUPPORT. One lemma per field per state update of Machine/Ops.lean, so that no later proof unfolds a record update, and the
small lemmas of the register accessors. -/

namespace Sys2Proof.Machine

/-! ## The register accessors -/

section

variable (b : RegBank) (v : Byte)

@[simp] theorem bankGet_slaveAddr : bankGet b .slaveAddr = b.slaveAddr := rfl
@[simp] theorem bankSet_slaveAddr : bankSet b .slaveAddr v = { b with slaveAddr := v } := rfl
@[simp] theorem bankGet_status : bankGet b .status = b.status := rfl
@[simp] theorem bankSet_status : bankSet b .status v = { b with status := v } := rfl
@[simp] theorem bankGet_direction : bankGet b .direction = b.direction := rfl
@[simp] theorem bankSet_direction : bankSet b .direction v = { b with direction := v } := rfl
@[simp] theorem bankGet_reserved : bankGet b .reserved = b.reserved := rfl
@[simp] theorem bankSet_reserved : bankSet b .reserved v = { b with reserved := v } := rfl
@[simp] theorem bankGet_speed0 : bankGet b .speed0 = b.speed0 := rfl
@[simp] theorem bankSet_speed0 : bankSet b .speed0 v = { b with speed0 := v } := rfl
@[simp] theorem bankGet_speed1 : bankGet b .speed1 = b.speed1 := rfl
@[simp] theorem bankSet_speed1 : bankSet b .speed1 v = { b with speed1 := v } := rfl
@[simp] theorem bankGet_inopts0 : bankGet b .inopts0 = b.inopts0 := rfl
@[simp] theorem bankSet_inopts0 : bankSet b .inopts0 v = { b with inopts0 := v } := rfl
@[simp] theorem bankGet_inopts1 : bankGet b .inopts1 = b.inopts1 := rfl
@[simp] theorem bankSet_inopts1 : bankSet b .inopts1 v = { b with inopts1 := v } := rfl
@[simp] theorem bankGet_intMask0 : bankGet b .intMask0 = b.intMask0 := rfl
@[simp] theorem bankSet_intMask0 : bankSet b .intMask0 v = { b with intMask0 := v } := rfl
@[simp] theorem bankGet_intMask1 : bankGet b .intMask1 = b.intMask1 := rfl
@[simp] theorem bankSet_intMask1 : bankSet b .intMask1 v = { b with intMask1 := v } := rfl

/-- Reading after writing: the written register gives the byte, every other one what it gave. -/
theorem bankGet_bankSet (r q : Reg) : bankGet (bankSet b r v) q = if q = r then v else bankGet b q := by
  cases r <;> cases q <;> rfl

@[simp] theorem speedOf_zero : speedOf b 0 = b.speed0 := rfl
@[simp] theorem speedOf_one : speedOf b 1 = b.speed1 := rfl
@[simp] theorem inoptsOf_zero : inoptsOf b 0 = b.inopts0 := rfl
@[simp] theorem inoptsOf_one : inoptsOf b 1 = b.inopts1 := rfl
@[simp] theorem intMaskOf_zero : intMaskOf b 0 = b.intMask0 := rfl
@[simp] theorem intMaskOf_one : intMaskOf b 1 = b.intMask1 := rfl
@[simp] theorem pwmDutyOf_zero (o : Latches) : pwmDutyOf o 0 = o.pwmDuty0 := rfl
@[simp] theorem pwmDutyOf_one (o : Latches) : pwmDutyOf o 1 = o.pwmDuty1 := rfl

/-- The register at an address, and the address of a register, agree. -/
@[simp] theorem Reg.ofAddr_addr (r : Reg) : Reg.ofAddr r.addr = some r := by cases r <;> rfl

/-- Addresses from `N` on name no register (R72). -/
theorem Reg.ofAddr_eq_none (a : RegAddr) (h : 10 ≤ a.toNat) : Reg.ofAddr a = none := by
  unfold Reg.ofAddr
  split <;> first | rfl | omega

end

/-! ## emit -/

section

variable (e : Effect) (s : State)

@[simp] theorem emit_bank : (emit e s).bank = s.bank := rfl
@[simp] theorem emit_out : (emit e s).out = s.out := rfl
@[simp] theorem emit_dirty : (emit e s).dirty = s.dirty := rfl
@[simp] theorem emit_flushBuf : (emit e s).flushBuf = s.flushBuf := rfl
@[simp] theorem emit_nv : (emit e s).nv = s.nv := rfl
@[simp] theorem emit_phase : (emit e s).phase = s.phase := rfl
@[simp] theorem emit_fx : (emit e s).fx = s.fx ++ [e] := rfl
@[simp] theorem emit_rdata : (emit e s).rdata = s.rdata := rfl
@[simp] theorem emit_pending : (emit e s).pending = s.pending := rfl
@[simp] theorem emit_freeIx : (emit e s).freeIx = s.freeIx := rfl

end

/-! ## rawWrite -/

section

variable (r : Reg) (v : Byte) (s : State)

@[simp] theorem rawWrite_bank : (rawWrite r v s).bank = bankSet s.bank r v := rfl
@[simp] theorem rawWrite_out : (rawWrite r v s).out = s.out := rfl
@[simp] theorem rawWrite_dirty : (rawWrite r v s).dirty = s.dirty := rfl
@[simp] theorem rawWrite_flushBuf : (rawWrite r v s).flushBuf = s.flushBuf := rfl
@[simp] theorem rawWrite_nv : (rawWrite r v s).nv = s.nv := rfl
@[simp] theorem rawWrite_phase : (rawWrite r v s).phase = s.phase := rfl
@[simp] theorem rawWrite_fx : (rawWrite r v s).fx = s.fx := rfl
@[simp] theorem rawWrite_rdata : (rawWrite r v s).rdata = s.rdata := rfl
@[simp] theorem rawWrite_pending : (rawWrite r v s).pending = s.pending := rfl
@[simp] theorem rawWrite_freeIx : (rawWrite r v s).freeIx = s.freeIx := rfl

end

/-! ## reinitBus -/

section

variable (a : Byte) (s : State)

@[simp] theorem reinitBus_bank : (reinitBus a s).bank = s.bank := rfl
@[simp] theorem reinitBus_out : (reinitBus a s).out = { s.out with busAddr := a } := rfl
@[simp] theorem reinitBus_dirty : (reinitBus a s).dirty = s.dirty := rfl
@[simp] theorem reinitBus_flushBuf : (reinitBus a s).flushBuf = s.flushBuf := rfl
@[simp] theorem reinitBus_nv : (reinitBus a s).nv = s.nv := rfl
@[simp] theorem reinitBus_phase : (reinitBus a s).phase = s.phase := rfl
@[simp] theorem reinitBus_fx : (reinitBus a s).fx = s.fx ++ [.busReinit a] := rfl
@[simp] theorem reinitBus_rdata : (reinitBus a s).rdata = s.rdata := rfl
@[simp] theorem reinitBus_pending : (reinitBus a s).pending = s.pending := rfl
@[simp] theorem reinitBus_freeIx : (reinitBus a s).freeIx = s.freeIx := rfl

end

/-! ## driveDirPins -/

section

variable (c : Byte) (s : State)

@[simp] theorem driveDirPins_bank : (driveDirPins c s).bank = s.bank := rfl
@[simp] theorem driveDirPins_out : (driveDirPins c s).out = { s.out with dirPin := c.setWidth 4 } := rfl
@[simp] theorem driveDirPins_dirty : (driveDirPins c s).dirty = s.dirty := rfl
@[simp] theorem driveDirPins_flushBuf : (driveDirPins c s).flushBuf = s.flushBuf := rfl
@[simp] theorem driveDirPins_nv : (driveDirPins c s).nv = s.nv := rfl
@[simp] theorem driveDirPins_phase : (driveDirPins c s).phase = s.phase := rfl
@[simp] theorem driveDirPins_fx : (driveDirPins c s).fx = s.fx ++ dirPinFx c := rfl
@[simp] theorem driveDirPins_rdata : (driveDirPins c s).rdata = s.rdata := rfl
@[simp] theorem driveDirPins_pending : (driveDirPins c s).pending = s.pending := rfl
@[simp] theorem driveDirPins_freeIx : (driveDirPins c s).freeIx = s.freeIx := rfl

end

/-! ## enablePwm -/

section

variable (c : Fin 2) (en : Bool) (s : State)

@[simp] theorem enablePwm_bank : (enablePwm c en s).bank = s.bank := rfl
@[simp] theorem enablePwm_out : (enablePwm c en s).out = { s.out with pwmEn := setBit s.out.pwmEn c.val en } := rfl
@[simp] theorem enablePwm_dirty : (enablePwm c en s).dirty = s.dirty := rfl
@[simp] theorem enablePwm_flushBuf : (enablePwm c en s).flushBuf = s.flushBuf := rfl
@[simp] theorem enablePwm_nv : (enablePwm c en s).nv = s.nv := rfl
@[simp] theorem enablePwm_phase : (enablePwm c en s).phase = s.phase := rfl
@[simp] theorem enablePwm_fx : (enablePwm c en s).fx = s.fx ++ [.enablePwm c en] := rfl
@[simp] theorem enablePwm_rdata : (enablePwm c en s).rdata = s.rdata := rfl
@[simp] theorem enablePwm_pending : (enablePwm c en s).pending = s.pending := rfl
@[simp] theorem enablePwm_freeIx : (enablePwm c en s).freeIx = s.freeIx := rfl

end

/-! ## setPwmDuty -/

section

variable (c : Fin 2) (d : Byte) (s : State)

@[simp] theorem setPwmDuty_bank : (setPwmDuty c d s).bank = s.bank := by unfold setPwmDuty; split <;> rfl
@[simp] theorem setPwmDuty_out :
    (setPwmDuty c d s).out = if c = 0 then { s.out with pwmDuty0 := d } else { s.out with pwmDuty1 := d } := by unfold setPwmDuty; split <;> rfl
@[simp] theorem setPwmDuty_dirty : (setPwmDuty c d s).dirty = s.dirty := by unfold setPwmDuty; split <;> rfl
@[simp] theorem setPwmDuty_flushBuf : (setPwmDuty c d s).flushBuf = s.flushBuf := by unfold setPwmDuty; split <;> rfl
@[simp] theorem setPwmDuty_nv : (setPwmDuty c d s).nv = s.nv := by unfold setPwmDuty; split <;> rfl
@[simp] theorem setPwmDuty_phase : (setPwmDuty c d s).phase = s.phase := by unfold setPwmDuty; split <;> rfl
@[simp] theorem setPwmDuty_fx :
    (setPwmDuty c d s).fx = s.fx ++ [.setPwmDuty c d] := by unfold setPwmDuty; split <;> rfl
@[simp] theorem setPwmDuty_rdata : (setPwmDuty c d s).rdata = s.rdata := by unfold setPwmDuty; split <;> rfl
@[simp] theorem setPwmDuty_pending : (setPwmDuty c d s).pending = s.pending := by unfold setPwmDuty; split <;> rfl
@[simp] theorem setPwmDuty_freeIx : (setPwmDuty c d s).freeIx = s.freeIx := by unfold setPwmDuty; split <;> rfl

end

/-! ## setPullup -/

section

variable (i : Fin 4) (en : Bool) (s : State)

@[simp] theorem setPullup_bank : (setPullup i en s).bank = s.bank := rfl
@[simp] theorem setPullup_out : (setPullup i en s).out = { s.out with pullup := setBit s.out.pullup i.val en } := rfl
@[simp] theorem setPullup_dirty : (setPullup i en s).dirty = s.dirty := rfl
@[simp] theorem setPullup_flushBuf : (setPullup i en s).flushBuf = s.flushBuf := rfl
@[simp] theorem setPullup_nv : (setPullup i en s).nv = s.nv := rfl
@[simp] theorem setPullup_phase : (setPullup i en s).phase = s.phase := rfl
@[simp] theorem setPullup_fx : (setPullup i en s).fx = s.fx ++ [.setPullup i en] := rfl
@[simp] theorem setPullup_rdata : (setPullup i en s).rdata = s.rdata := rfl
@[simp] theorem setPullup_pending : (setPullup i en s).pending = s.pending := rfl
@[simp] theorem setPullup_freeIx : (setPullup i en s).freeIx = s.freeIx := rfl

end

/-! ## setIntLine -/

section

variable (k : Fin 2) (b : Bool) (s : State)

@[simp] theorem setIntLine_bank : (setIntLine k b s).bank = s.bank := rfl
@[simp] theorem setIntLine_out :
    (setIntLine k b s).out = { s.out with intLine := setBit s.out.intLine k.val b } := rfl
@[simp] theorem setIntLine_dirty : (setIntLine k b s).dirty = s.dirty := rfl
@[simp] theorem setIntLine_flushBuf : (setIntLine k b s).flushBuf = s.flushBuf := rfl
@[simp] theorem setIntLine_nv : (setIntLine k b s).nv = s.nv := rfl
@[simp] theorem setIntLine_phase : (setIntLine k b s).phase = s.phase := rfl
@[simp] theorem setIntLine_fx : (setIntLine k b s).fx = s.fx ++ [.setIntLine k b] := rfl
@[simp] theorem setIntLine_rdata : (setIntLine k b s).rdata = s.rdata := rfl
@[simp] theorem setIntLine_pending : (setIntLine k b s).pending = s.pending := rfl
@[simp] theorem setIntLine_freeIx : (setIntLine k b s).freeIx = s.freeIx := rfl

end

/-! ## raiseLine -/

section

variable (k : Fin 2) (s : State)

@[simp] theorem raiseLine_bank :
    (raiseLine k s).bank = bankSet s.bank .status (setBit s.bank.status (intFlagBit k) true) := rfl
@[simp] theorem raiseLine_out :
    (raiseLine k s).out = { s.out with intLine := setBit s.out.intLine k.val true } := rfl
@[simp] theorem raiseLine_dirty : (raiseLine k s).dirty = s.dirty := rfl
@[simp] theorem raiseLine_flushBuf : (raiseLine k s).flushBuf = s.flushBuf := rfl
@[simp] theorem raiseLine_nv : (raiseLine k s).nv = s.nv := rfl
@[simp] theorem raiseLine_phase : (raiseLine k s).phase = s.phase := rfl
@[simp] theorem raiseLine_fx : (raiseLine k s).fx = s.fx ++ [.setIntLine k true] := rfl
@[simp] theorem raiseLine_rdata : (raiseLine k s).rdata = s.rdata := rfl
@[simp] theorem raiseLine_pending : (raiseLine k s).pending = s.pending := rfl
@[simp] theorem raiseLine_freeIx : (raiseLine k s).freeIx = s.freeIx := rfl

end

/-! ## releaseLine -/

section

variable (v : Byte) (k : Fin 2) (s : State)

@[simp] theorem releaseLine_bank : (releaseLine v k s).bank = s.bank := by unfold releaseLine; split <;> rfl
@[simp] theorem releaseLine_out :
    (releaseLine v k s).out = if releasesLine v k then { s.out with intLine := setBit s.out.intLine k.val false } else s.out := by unfold releaseLine; split <;> rfl
@[simp] theorem releaseLine_dirty : (releaseLine v k s).dirty = s.dirty := by unfold releaseLine; split <;> rfl
@[simp] theorem releaseLine_flushBuf :
    (releaseLine v k s).flushBuf = s.flushBuf := by unfold releaseLine; split <;> rfl
@[simp] theorem releaseLine_nv : (releaseLine v k s).nv = s.nv := by unfold releaseLine; split <;> rfl
@[simp] theorem releaseLine_phase : (releaseLine v k s).phase = s.phase := by unfold releaseLine; split <;> rfl
@[simp] theorem releaseLine_fx :
    (releaseLine v k s).fx = if releasesLine v k then s.fx ++ [.setIntLine k false] else s.fx := by unfold releaseLine; split <;> rfl
@[simp] theorem releaseLine_rdata : (releaseLine v k s).rdata = s.rdata := by unfold releaseLine; split <;> rfl
@[simp] theorem releaseLine_pending : (releaseLine v k s).pending = s.pending := by unfold releaseLine; split <;> rfl
@[simp] theorem releaseLine_freeIx : (releaseLine v k s).freeIx = s.freeIx := by unfold releaseLine; split <;> rfl

end

/-! ## nvStore -/

section

variable (b : RegBank) (s : State)

@[simp] theorem nvStore_bank : (nvStore b s).bank = s.bank := rfl
@[simp] theorem nvStore_out : (nvStore b s).out = s.out := rfl
@[simp] theorem nvStore_dirty : (nvStore b s).dirty = s.dirty := rfl
@[simp] theorem nvStore_flushBuf : (nvStore b s).flushBuf = s.flushBuf := rfl
@[simp] theorem nvStore_nv : (nvStore b s).nv = b := rfl
@[simp] theorem nvStore_phase : (nvStore b s).phase = s.phase := rfl
@[simp] theorem nvStore_fx : (nvStore b s).fx = s.fx ++ [.nvStore b] := rfl
@[simp] theorem nvStore_rdata : (nvStore b s).rdata = s.rdata := rfl
@[simp] theorem nvStore_pending : (nvStore b s).pending = s.pending := rfl
@[simp] theorem nvStore_freeIx : (nvStore b s).freeIx = s.freeIx := rfl

end

/-! ## nvLoad -/

section

variable (s : State)

@[simp] theorem nvLoad_fst : (nvLoad s).1 = s.nv := rfl
@[simp] theorem nvLoad_snd : (nvLoad s).2 = emit .nvLoad s := rfl

end

/-! ## powerCycle -/

section

variable (s : State)

@[simp] theorem powerCycle_phase : (powerCycle s).phase = .startup := rfl
@[simp] theorem powerCycle_fx : (powerCycle s).fx = s.fx := rfl
@[simp] theorem powerCycle_pending : (powerCycle s).pending = s.pending := rfl
@[simp] theorem powerCycle_freeIx : (powerCycle s).freeIx = s.freeIx + 1 := rfl

/-- With no flush in progress the storage survives (R170). -/
theorem powerCycle_nv (h : s.flushBuf = none) : (powerCycle s).nv = s.nv := by
  simp [powerCycle, h]

end

end Sys2Proof.Machine
end

