-- ==== Sys2Proof/Laws/Ops.lean ====
section
/-! SUPPORT. For each shared operation, once, what it can do; proofs cite these and do not unfold it. -/

namespace Sys2Proof.Machine

/-! ## Admission -/

theorem whenRunning_eq (s : State) (f : State → State) (h : s.phase = .running) :
    whenRunning s f = .next (f s) := by
  simp [whenRunning, h]

/-- An admitted operation answered a next state: the block was running, and the state is the effect's. -/
theorem whenRunning_next (s t : State) (f : State → State) (h : whenRunning s f = .next t) :
    s.phase = .running ∧ t = f s := by
  unfold whenRunning at h
  split at h
  · next hp => exact ⟨hp, by simpa using h.symm⟩
  · cases h

/-! ## Bus reads -/

theorem busRead_addr (r : Reg) (s : State) : busRead r.addr s = bankGet s.bank r := by
  simp [busRead]

theorem busRead_out_of_range (a : RegAddr) (s : State) (h : 10 ≤ a.toNat) : busRead a s = 0 := by
  simp [busRead, Reg.ofAddr_eq_none a h]

/-! ## Handlers and register writes -/

/-- What the handler of a register makes of the latches (R132 to R141). -/
def handlerOut (r : Reg) (v : Byte) (o : Latches) : Latches :=
  match r with
  | .slaveAddr => { o with busAddr := v }
  | .status =>
    let l := if releasesLine v 0 then setBit o.intLine 0 false else o.intLine
    { o with intLine := if releasesLine v 1 then setBit l 1 false else l }
  | .direction => { o with dirPin := (v &&& 0x0F#8).setWidth 4 }
  | .reserved => o
  | .speed0 =>
    if v = 0#8 then { o with pwmEn := setBit o.pwmEn 0 false }
    else { o with pwmEn := setBit o.pwmEn 0 true, pwmDuty0 := v }
  | .speed1 =>
    if v = 0#8 then { o with pwmEn := setBit o.pwmEn 1 false }
    else { o with pwmEn := setBit o.pwmEn 1 true, pwmDuty1 := v }
  | .inopts0 => { o with pullup := setBit (setBit o.pullup 0 (getBit v 0)) 1 (getBit v 1) }
  | .inopts1 => { o with pullup := setBit (setBit o.pullup 2 (getBit v 0)) 3 (getBit v 1) }
  | .intMask0 => o
  | .intMask1 => o

/-- The effects the handler of a register emits: they depend on the written byte alone (R131). -/
def handlerFx (r : Reg) (v : Byte) : List Effect :=
  match r with
  | .slaveAddr => [.busReinit v]
  | .status =>
    (if releasesLine v 0 then [.setIntLine 0 false] else []) ++
      (if releasesLine v 1 then [.setIntLine 1 false] else [])
  | .direction => dirPinFx (v &&& 0x0F#8)
  | .reserved => []
  | .speed0 => if v = 0#8 then [.enablePwm 0 false] else [.enablePwm 0 true, .setPwmDuty 0 v]
  | .speed1 => if v = 0#8 then [.enablePwm 1 false] else [.enablePwm 1 true, .setPwmDuty 1 v]
  | .inopts0 => [.setPullup 0 (getBit v 0), .setPullup 1 (getBit v 1)]
  | .inopts1 => [.setPullup 2 (getBit v 0), .setPullup 3 (getBit v 1)]
  | .intMask0 => []
  | .intMask1 => []

/-- The byte the handler of a register commits: it depends on the incoming byte and, for `status`, on the current status
(R51, R131). -/
def handlerByte (r : Reg) (v status : Byte) : Byte :=
  match r with
  | .status => committedStatus v status
  | .direction => v &&& 0x0F#8
  | .reserved => 0
  | _ => v

/-- Everything a handler does: latches, trace, committed byte, and nothing else (R131). -/
theorem handler_eq (r : Reg) (v : Byte) (s : State) :
    handler r v s =
      ({ s with out := handlerOut r v s.out, fx := s.fx ++ handlerFx r v }, handlerByte r v s.bank.status) := by
  cases r
  case status =>
    by_cases h0 : releasesLine v 0 <;> by_cases h1 : releasesLine v 1 <;>
      simp [handler, handleStatus, releaseLine, setIntLine, emit, handlerOut, handlerFx, handlerByte, h0, h1]
  case speed0 =>
    by_cases h : v = 0#8 <;>
      simp [handler, handleSpeed0, driveSpeed, enablePwm, setPwmDuty, emit, handlerOut, handlerFx, handlerByte, h]
  case speed1 =>
    by_cases h : v = 0#8 <;>
      simp [handler, handleSpeed1, driveSpeed, enablePwm, setPwmDuty, emit, handlerOut, handlerFx, handlerByte, h]
  case inopts0 =>
    simp [handler, handleInopts0, drivePullups, setPullup, emit, handlerOut, handlerFx, handlerByte, inputOf,
      pullupBit]
  case inopts1 =>
    simp [handler, handleInopts1, drivePullups, setPullup, emit, handlerOut, handlerFx, handlerByte, inputOf,
      pullupBit]
  all_goals
    simp [handler, handleSlaveAddr, handleDirection, handleReserved, handleIntmask0, handleIntmask1, reinitBus,
      driveDirPins, emit, handlerOut, handlerFx, handlerByte]

/-- Everything a register write does. -/
theorem writeReg_eq (r : Reg) (v : Byte) (s : State) :
    writeReg r v s = { s with
      bank := bankSet s.bank r (handlerByte r v s.bank.status)
      out := handlerOut r v s.out
      fx := s.fx ++ handlerFx r v } := by
  simp [writeReg, rawWrite, handler_eq]

section

variable (r : Reg) (v : Byte) (s : State)

@[simp] theorem writeReg_bank : (writeReg r v s).bank = bankSet s.bank r (handlerByte r v s.bank.status) := by
  rw [writeReg_eq]

@[simp] theorem writeReg_out : (writeReg r v s).out = handlerOut r v s.out := by rw [writeReg_eq]

@[simp] theorem writeReg_fx : (writeReg r v s).fx = s.fx ++ handlerFx r v := by rw [writeReg_eq]

@[simp] theorem writeReg_dirty : (writeReg r v s).dirty = s.dirty := by rw [writeReg_eq]

@[simp] theorem writeReg_flushBuf : (writeReg r v s).flushBuf = s.flushBuf := by rw [writeReg_eq]

@[simp] theorem writeReg_nv : (writeReg r v s).nv = s.nv := by rw [writeReg_eq]

@[simp] theorem writeReg_phase : (writeReg r v s).phase = s.phase := by rw [writeReg_eq]

@[simp] theorem writeReg_rdata : (writeReg r v s).rdata = s.rdata := by rw [writeReg_eq]

@[simp] theorem writeReg_pending : (writeReg r v s).pending = s.pending := by rw [writeReg_eq]

@[simp] theorem writeReg_freeIx : (writeReg r v s).freeIx = s.freeIx := by rw [writeReg_eq]

end

/-! ## Which handler drives which latch -/

/-- Only the direction handler drives the direction pins (R36). -/
theorem handlerOut_dirPin (r : Reg) (v : Byte) (o : Latches) (h : r ≠ .direction) :
    (handlerOut r v o).dirPin = o.dirPin := by
  cases r <;> first | exact absurd rfl h | rfl | (simp only [handlerOut]; split <;> rfl)

/-- Only the speed handlers drive the PWM enables (R37). -/
theorem handlerOut_pwmEn (r : Reg) (v : Byte) (o : Latches) (h0 : r ≠ .speed0) (h1 : r ≠ .speed1) :
    (handlerOut r v o).pwmEn = o.pwmEn := by
  cases r <;> first | exact absurd rfl h0 | exact absurd rfl h1 | rfl

/-- Only the handler of `speed[0]` drives the duty of channel 0 (R38). -/
theorem handlerOut_pwmDuty0 (r : Reg) (v : Byte) (o : Latches) (h : r ≠ .speed0) :
    (handlerOut r v o).pwmDuty0 = o.pwmDuty0 := by
  cases r <;> first | exact absurd rfl h | rfl | (simp only [handlerOut]; split <;> rfl)

/-- Only the handler of `speed[1]` drives the duty of channel 1 (R38). -/
theorem handlerOut_pwmDuty1 (r : Reg) (v : Byte) (o : Latches) (h : r ≠ .speed1) :
    (handlerOut r v o).pwmDuty1 = o.pwmDuty1 := by
  cases r <;> first | exact absurd rfl h | rfl | (simp only [handlerOut]; split <;> rfl)

/-- Only the input-option handlers drive the pull-ups (R39). -/
theorem handlerOut_pullup (r : Reg) (v : Byte) (o : Latches) (h0 : r ≠ .inopts0) (h1 : r ≠ .inopts1) :
    (handlerOut r v o).pullup = o.pullup := by
  cases r <;> first | exact absurd rfl h0 | exact absurd rfl h1 | rfl | (simp only [handlerOut]; split <;> rfl)

/-- Only the handler of `slave_addr` reinitialises the bus engine (R41). -/
theorem handlerOut_busAddr (r : Reg) (v : Byte) (o : Latches) (h : r ≠ .slaveAddr) :
    (handlerOut r v o).busAddr = o.busAddr := by
  cases r <;> first | exact absurd rfl h | rfl | (simp only [handlerOut]; split <;> rfl)

/-- A handler never asserts a line (R193). -/
theorem handlerOut_intLine (r : Reg) (v : Byte) (o : Latches) (k : Nat)
    (h : getBit (handlerOut r v o).intLine k = true) : getBit o.intLine k = true := by
  revert h
  cases r <;> try exact id
  case status =>
    by_cases h0 : releasesLine v 0 <;> by_cases h1 : releasesLine v 1 <;>
      simp only [handlerOut, h0, h1, if_true, if_false, getBit_setBit, Bool.false_eq_true] <;> intro h <;>
      (try split_ifs at h) <;> exact h
  all_goals
    simp only [handlerOut]
    split <;> exact id

/-- Bit by bit, the byte a write of `status` commits: the flags are anded, every other bit is kept (R133). -/
theorem getBit_committedStatus (v c : Byte) (i : Nat) :
    getBit (committedStatus v c) i = (if i = 4 ∨ i = 5 then getBit v i && getBit c i else getBit c i) := by
  by_cases hi : i < 8
  · simp only [committedStatus, getBit_and, getBit_or]
    have h : getBit statusKeep i = !(decide (i = 4 ∨ i = 5)) := by
      interval_cases i <;> rfl
    by_cases h45 : i = 4 ∨ i = 5 <;> simp [h, h45]
  · simp [getBit_of_le _ i (by omega : 8 ≤ i)]

/-! ## Interrupt lines -/

/-- After `releaseLine`, line `k` is as the incoming flag bit lets it be, and the other line is as it was. -/
theorem getBit_releaseLine (v : Byte) (k j : Fin 2) (s : State) :
    getBit (releaseLine v k s).out.intLine j.val =
      if j = k then getBit v (intFlagBit k) && getBit s.out.intLine j.val else getBit s.out.intLine j.val := by
  have hk := k.isLt
  by_cases h : getBit v (intFlagBit k) <;> by_cases hjk : j = k <;>
    simp [releasesLine, h, hjk, getBit_setBit, Fin.val_inj, hk]

/-- `raiseLine` asserts its line and leaves the other. -/
theorem getBit_raiseLine (k j : Fin 2) (s : State) :
    getBit (raiseLine k s).out.intLine j.val = (decide (j = k) || getBit s.out.intLine j.val) := by
  have hk := k.isLt
  by_cases hjk : j = k <;> simp [hjk, getBit_setBit, Fin.val_inj, hk]

end Sys2Proof.Machine
end

