-- ==== Sys2Proof/Laws/PerInstr.lean ====
section
/-! SUPPORT. The per-operation families, one lemma per constructor of `Instr`. -/

namespace Sys2Proof.Laws

/-- The class code of an operation (spec 30_encoding.md R94). -/
def classCode : Instr → BitVec 3
  | .rd _ => 0b000
  | .wrSlaveAddr _ => 0b001
  | .wrStatus _ => 0b001
  | .wrDirection _ => 0b001
  | .wrReserved _ => 0b001
  | .wrSpeed0 _ => 0b001
  | .wrSpeed1 _ => 0b001
  | .wrInopts0 _ => 0b001
  | .wrInopts1 _ => 0b001
  | .wrIntmask0 _ => 0b001
  | .wrIntmask1 _ => 0b001
  | .wrCommit _ => 0b001
  | .wrNop _ _ => 0b001
  | .pinchg _ => 0b010
  | .flushBegin => 0b011
  | .flushEnd => 0b100
  | .restore => 0b101

/-- The descriptor of an operation carries its class code, and its must-be-zero bit 16 is 0 (R93, R94). -/
def EncodesClass.Statement (i : Instr) : Prop :=
  descCls (encode i) = classCode i ∧ descZero (encode i) = false

theorem EncodesClass.rd (addr : RegAddr) : EncodesClass.Statement (.rd addr) :=
  ⟨descCls_packDesc _ _ _, descZero_packDesc _ _ _⟩

theorem EncodesClass.wrSlaveAddr (data : Byte) : EncodesClass.Statement (.wrSlaveAddr data) :=
  ⟨descCls_packDesc _ _ _, descZero_packDesc _ _ _⟩

theorem EncodesClass.wrStatus (data : Byte) : EncodesClass.Statement (.wrStatus data) :=
  ⟨descCls_packDesc _ _ _, descZero_packDesc _ _ _⟩

theorem EncodesClass.wrDirection (data : Byte) : EncodesClass.Statement (.wrDirection data) :=
  ⟨descCls_packDesc _ _ _, descZero_packDesc _ _ _⟩

theorem EncodesClass.wrReserved (data : Byte) : EncodesClass.Statement (.wrReserved data) :=
  ⟨descCls_packDesc _ _ _, descZero_packDesc _ _ _⟩

theorem EncodesClass.wrSpeed0 (data : Byte) : EncodesClass.Statement (.wrSpeed0 data) :=
  ⟨descCls_packDesc _ _ _, descZero_packDesc _ _ _⟩

theorem EncodesClass.wrSpeed1 (data : Byte) : EncodesClass.Statement (.wrSpeed1 data) :=
  ⟨descCls_packDesc _ _ _, descZero_packDesc _ _ _⟩

theorem EncodesClass.wrInopts0 (data : Byte) : EncodesClass.Statement (.wrInopts0 data) :=
  ⟨descCls_packDesc _ _ _, descZero_packDesc _ _ _⟩

theorem EncodesClass.wrInopts1 (data : Byte) : EncodesClass.Statement (.wrInopts1 data) :=
  ⟨descCls_packDesc _ _ _, descZero_packDesc _ _ _⟩

theorem EncodesClass.wrIntmask0 (data : Byte) : EncodesClass.Statement (.wrIntmask0 data) :=
  ⟨descCls_packDesc _ _ _, descZero_packDesc _ _ _⟩

theorem EncodesClass.wrIntmask1 (data : Byte) : EncodesClass.Statement (.wrIntmask1 data) :=
  ⟨descCls_packDesc _ _ _, descZero_packDesc _ _ _⟩

theorem EncodesClass.wrCommit (data : Byte) : EncodesClass.Statement (.wrCommit data) :=
  ⟨descCls_packDesc _ _ _, descZero_packDesc _ _ _⟩

theorem EncodesClass.wrNop (addr : RegAddr) (data : Byte) : EncodesClass.Statement (.wrNop addr data) :=
  ⟨descCls_packDesc _ _ _, descZero_packDesc _ _ _⟩

theorem EncodesClass.pinchg (pin : Pins) : EncodesClass.Statement (.pinchg pin) :=
  ⟨descCls_packDesc _ _ _, descZero_packDesc _ _ _⟩

theorem EncodesClass.flushBegin : EncodesClass.Statement .flushBegin :=
  ⟨descCls_packDesc _ _ _, descZero_packDesc _ _ _⟩

theorem EncodesClass.flushEnd : EncodesClass.Statement .flushEnd :=
  ⟨descCls_packDesc _ _ _, descZero_packDesc _ _ _⟩

theorem EncodesClass.restore : EncodesClass.Statement .restore :=
  ⟨descCls_packDesc _ _ _, descZero_packDesc _ _ _⟩

end Sys2Proof.Laws
end

