-- ==== Sys2Proof/Laws/Persistence.lean ====
section
/-! SUPPORT. What `RESTORE` and the flush steps do, as equations (spec 43_persistence.md R165 to R172). -/

namespace Sys2Proof.Machine

/-- Replaying the status handler on the loaded status keeps it (R169). -/
@[simp] theorem committedStatus_self (v : Byte) : committedStatus v v = v := by
  apply eq_of_getBit
  intro i _
  rw [getBit_committedStatus]
  split <;> simp

/-- The latches after the replay of `l`: every register's handler in ascending order (R165, R169). -/
def replayOut (l : RegBank) (o : Latches) : Latches :=
  handlerOut .inopts1 l.inopts1 <| handlerOut .inopts0 l.inopts0 <| handlerOut .speed1 l.speed1 <|
    handlerOut .speed0 l.speed0 <| handlerOut .direction l.direction <| handlerOut .status l.status <|
      handlerOut .slaveAddr l.slaveAddr o

/-- The effects of the replay of `l`. -/
def replayFx (l : RegBank) : List Effect := Reg.all.flatMap fun r => handlerFx r (bankGet l r)

section

variable (l : RegBank) (o : Latches)

/-- After a replay every direction pin equals its loaded bit (R49). -/
theorem replayOut_dirPin (i : Fin 4) : getBit (replayOut l o).dirPin i.val = getBit l.direction i.val := by
  have h : (replayOut l o).dirPin = (l.direction &&& 0x0F#8).setWidth 4 := by
    simp only [replayOut, handlerOut_dirPin, ne_eq, reduceCtorEq, not_false_eq_true]
    rfl
  have h15 : getBit 0x0F#8 i.val = true := by revert i; decide
  rw [h, getBit_setWidth, getBit_and, h15]
  simp

/-- After a replay every channel is enabled exactly when its loaded speed is not 0 (R49). -/
theorem replayOut_pwmEn (c : Fin 2) : getBit (replayOut l o).pwmEn c.val = (speedOf l c != 0#8) := by
  have h : (replayOut l o).pwmEn = (handlerOut .speed1 l.speed1 (handlerOut .speed0 l.speed0 o)).pwmEn := by
    simp only [replayOut, handlerOut]
    split <;> split <;> rfl
  rw [h]
  match c with
  | 0 => simp only [handlerOut]; split_ifs <;> simp_all [getBit_setBit]
  | 1 => simp only [handlerOut]; split_ifs <;> simp_all [getBit_setBit]

/-- After a replay a channel's duty is its loaded speed, or what it was when that is 0 (R49). -/
theorem replayOut_pwmDuty (c : Fin 2) :
    pwmDutyOf (replayOut l o) c = if speedOf l c = 0#8 then pwmDutyOf o c else speedOf l c := by
  match c with
  | 0 =>
    simp only [replayOut, handlerOut_pwmDuty0, pwmDutyOf_zero, speedOf_zero, ne_eq, reduceCtorEq, not_false_eq_true]
    by_cases h : l.speed0 = 0#8 <;> simp [handlerOut, h]
  | 1 =>
    simp only [replayOut, handlerOut_pwmDuty1, pwmDutyOf_one, speedOf_one, ne_eq, reduceCtorEq, not_false_eq_true]
    by_cases h : l.speed1 = 0#8
    · simp only [handlerOut, h, if_true]
      split <;> rfl
    · simp [handlerOut, h]

/-- After a replay every pull-up is its loaded option bit (R49). -/
theorem replayOut_pullup (m j : Fin 2) :
    getBit (replayOut l o).pullup (inputOf m j).val = getBit (inoptsOf l m) (pullupBit j) := by
  match m, j with
  | 0, 0 => simp [replayOut, handlerOut, getBit_setBit, inputOf, pullupBit]
  | 0, 1 => simp [replayOut, handlerOut, getBit_setBit, inputOf, pullupBit]
  | 1, 0 => simp [replayOut, handlerOut, getBit_setBit, inputOf, pullupBit]
  | 1, 1 => simp [replayOut, handlerOut, getBit_setBit, inputOf, pullupBit]

/-- After a replay a line is released when its loaded flag is 0, and is as it was when the flag is 1 (R49, R223). -/
theorem replayOut_intLine (k : Fin 2) : getBit (replayOut l o).intLine k.val =
    (getBit l.status (intFlagBit k) && getBit o.intLine k.val) := by
  have h : (replayOut l o).intLine = (handlerOut .status l.status o).intLine := by
    simp only [replayOut, handlerOut]
    split <;> split <;> rfl
  rw [h]
  match k with
  | 0 =>
    cases h4 : getBit l.status 4 <;> cases h5 : getBit l.status 5 <;>
      simp [handlerOut, releasesLine, intFlagBit, h4, h5, getBit_setBit]
  | 1 =>
    cases h4 : getBit l.status 4 <;> cases h5 : getBit l.status 5 <;>
      simp [handlerOut, releasesLine, intFlagBit, h4, h5, getBit_setBit]

/-- After a replay the bus engine has the loaded address (R49). -/
theorem replayOut_busAddr : (replayOut l o).busAddr = l.slaveAddr := by
  simp only [replayOut, handlerOut_busAddr, ne_eq, reduceCtorEq, not_false_eq_true]
  rfl

end

/-- Everything the replay does to a state whose bank is freshly loaded. -/
theorem replay_eq (s : State) :
    replay s = { s with
      bank := { s.bank with direction := s.bank.direction &&& 0x0F#8, reserved := 0 }
      out := replayOut s.bank s.out
      fx := s.fx ++ replayFx s.bank } := by
  simp [replay, Reg.all, List.foldl, writeReg_eq, handlerByte, replayOut, replayFx]
  rfl

/-- Everything `RESTORE` does. -/
theorem restoreAll_eq (s : State) :
    restoreAll s = { s with
      bank := { loadedBank s.nv with direction := (loadedBank s.nv).direction &&& 0x0F#8, reserved := 0 }
      out := replayOut (loadedBank s.nv) s.out
      dirty := false
      flushBuf := none
      phase := .running
      fx := s.fx ++ .nvLoad :: replayFx (loadedBank s.nv) } := by
  simp [restoreAll, replay_eq, loadBank, nvLoad, emit]

/-- `RESTORE` answered a next state: it was the first operation of the power cycle. -/
theorem execRestore_next (s t : State) (h : execRestore s = .next t) : s.phase = .startup ∧ t = restoreAll s := by
  unfold execRestore at h
  split at h
  · next hp => exact ⟨hp, by simpa using h.symm⟩
  · cases h

/-- `FLUSH_BEGIN` answered a next state: it was enabled, and the bank was copied. -/
theorem execFlushBegin_next (s t : State) (h : execFlushBegin s = .next t) :
    s.phase = .running ∧ s.dirty = true ∧ s.flushBuf = none ∧ t = { s with flushBuf := some s.bank } := by
  unfold execFlushBegin at h
  split at h
  · cases h
  · next hp =>
    split at h
    · next hen =>
      simp only [Bool.and_eq_true, Option.isNone_iff_eq_none] at hen
      exact ⟨hp, hen.1, hen.2, by simpa using h.symm⟩
    · cases h

/-- `FLUSH_END` answered a next state: a flush was in progress, and its snapshot was stored. -/
theorem execFlushEnd_next (s t : State) (h : execFlushEnd s = .next t) :
    s.phase = .running ∧ ∃ b, s.flushBuf = some b ∧
      t = { s with nv := b, flushBuf := none, dirty := false, fx := s.fx ++ [.nvStore b] } := by
  unfold execFlushEnd at h
  split at h
  · cases h
  · next hp =>
    split at h
    · next b hb => exact ⟨hp, b, hb, by simpa [nvStore, emit] using h.symm⟩
    · cases h

end Sys2Proof.Machine
end

