-- ==== Sys2Proof/Laws/Sampler.lean ====
section
/-! SUPPORT. What sampling one input does, as one equation, and what sampling all four does, bit by bit (spec
42_input_sampler.md R150 to R157). -/

namespace Sys2Proof.Machine

/-- The mask bit alone selects a line (R155). -/
@[simp] theorem maskSelects_eq (mask : Byte) (id : Fin 4) (old new : Bool) :
    maskSelects mask id old new = getBit mask id.val := by
  simp [maskSelects, intOnChangeOnly]

/-- The level of input `id` as the options in `b` make it (R152). -/
def levelOf (p : Pins) (b : RegBank) (id : Fin 4) : Bool := getBit p id.val ^^ inverted b id

/-- The cutoff of input `id` fires (R154). -/
def cutFires (p : Pins) (b : RegBank) (id : Fin 4) : Bool :=
  levelOf p b id && limitEnabled b id && getBit b.direction id.val

/-- `status` after input `id` (R153, R155). -/
def sampledStatus (p : Pins) (b : RegBank) (id : Fin 4) : Byte :=
  let recorded := setBit b.status id.val (levelOf p b id)
  let line0 := if getBit b.intMask0 id.val then setBit recorded 4 true else recorded
  if getBit b.intMask1 id.val then setBit line0 5 true else line0

/-- `direction` after input `id` (R154). -/
def sampledDirection (p : Pins) (b : RegBank) (id : Fin 4) : Byte :=
  if cutFires p b id then setBit b.direction id.val false else b.direction

/-- The latches after input `id` (R154, R155). -/
def sampledOut (p : Pins) (b : RegBank) (id : Fin 4) (o : Latches) : Latches :=
  let line0 := if getBit b.intMask0 id.val then setBit o.intLine 0 true else o.intLine
  { o with
    dirPin := if cutFires p b id then (setBit b.direction id.val false).setWidth 4 else o.dirPin
    intLine := if getBit b.intMask1 id.val then setBit line0 1 true else line0 }

/-- The effects of input `id` (R150). -/
def sampledFx (p : Pins) (b : RegBank) (id : Fin 4) : List Effect :=
  (if cutFires p b id then dirPinFx (setBit b.direction id.val false) else []) ++
    (if getBit b.intMask0 id.val then [.setIntLine 0 true] else []) ++
    (if getBit b.intMask1 id.val then [.setIntLine 1 true] else [])

/-- Everything step 3 does. -/
theorem recordLevel_eq (id : Fin 4) (lvl : Bool) (s : State) :
    recordLevel id lvl s = { s with bank := { s.bank with status := setBit s.bank.status id.val lvl } } := rfl

/-- Everything step 4 does. -/
theorem limitCutoff_eq (id : Fin 4) (lvl : Bool) (s : State) :
    limitCutoff id lvl s = { s with
      bank := { s.bank with
        direction := if cutsOff id lvl s then setBit s.bank.direction id.val false else s.bank.direction }
      out := { s.out with
        dirPin := if cutsOff id lvl s then (setBit s.bank.direction id.val false).setWidth 4 else s.out.dirPin }
      fx := s.fx ++ if cutsOff id lvl s then dirPinFx (setBit s.bank.direction id.val false) else [] } := by
  unfold limitCutoff
  split <;> simp [driveDirPins, rawWrite]

/-- Everything step 5 does for one line. -/
theorem selectLine_eq (k : Fin 2) (id : Fin 4) (old new : Bool) (s : State) :
    selectLine k id old new s =
      let sel := getBit (intMaskOf s.bank k) id.val
      { s with
        bank := { s.bank with
          status := if sel then setBit s.bank.status (intFlagBit k) true else s.bank.status }
        out := { s.out with intLine := if sel then setBit s.out.intLine k.val true else s.out.intLine }
        fx := s.fx ++ if sel then [.setIntLine k true] else [] } := by
  simp only [selectLine, maskSelects_eq]
  split <;> simp [raiseLine, setIntLine, emit, rawWrite]

/-- Everything the sampling of one input does. -/
theorem sampleInput_eq (p : Pins) (id : Fin 4) (s : State) :
    sampleInput p id s = { s with
      bank := { s.bank with status := sampledStatus p s.bank id, direction := sampledDirection p s.bank id }
      out := sampledOut p s.bank id s.out
      fx := s.fx ++ sampledFx p s.bank id } := by
  simp only [sampleInput, selectLine_eq, limitCutoff_eq, recordLevel_eq, sampledFx, List.append_assoc]
  rfl

section

variable (p : Pins) (id : Fin 4) (s : State)

@[simp] theorem sampleInput_bank : (sampleInput p id s).bank =
    { s.bank with status := sampledStatus p s.bank id, direction := sampledDirection p s.bank id } := by
  rw [sampleInput_eq]

@[simp] theorem sampleInput_out : (sampleInput p id s).out = sampledOut p s.bank id s.out := by rw [sampleInput_eq]

@[simp] theorem sampleInput_fx : (sampleInput p id s).fx = s.fx ++ sampledFx p s.bank id := by rw [sampleInput_eq]

end

/-- The options of an input do not depend on `status` and `direction`. -/
@[simp] theorem inverted_sampled (b : RegBank) (st d : Byte) (id : Fin 4) :
    inverted { b with status := st, direction := d } id = inverted b id := rfl

@[simp] theorem limitEnabled_sampled (b : RegBank) (st d : Byte) (id : Fin 4) :
    limitEnabled { b with status := st, direction := d } id = limitEnabled b id := rfl

@[simp] theorem levelOf_sampled (p : Pins) (b : RegBank) (st d : Byte) (id : Fin 4) :
    levelOf p { b with status := st, direction := d } id = levelOf p b id := rfl

@[simp] theorem cutFires_sampled (p : Pins) (b : RegBank) (st d : Byte) (id : Fin 4) :
    cutFires p { b with status := st, direction := d } id =
      (levelOf p b id && limitEnabled b id && getBit d id.val) := rfl

/-- One status bit after input `id`: its own bit is the level, a flag is set by its mask, the rest are kept. -/
theorem getBit_sampledStatus (p : Pins) (b : RegBank) (id : Fin 4) (q : Nat) :
    getBit (sampledStatus p b id) q =
      if q = id.val then levelOf p b id
      else if q = 4 then getBit b.intMask0 id.val || getBit b.status q
      else if q = 5 then getBit b.intMask1 id.val || getBit b.status q
      else getBit b.status q := by
  have h := id.isLt
  by_cases h0 : getBit b.intMask0 id.val <;> by_cases h1 : getBit b.intMask1 id.val <;>
    simp only [sampledStatus, h0, h1, if_true, if_false, getBit_setBit, Bool.false_eq_true] <;>
    split_ifs <;> first | rfl | omega

/-- One direction bit after input `id`: only its own bit can be cleared. -/
theorem getBit_sampledDirection (p : Pins) (b : RegBank) (id : Fin 4) (q : Nat) :
    getBit (sampledDirection p b id) q =
      (getBit b.direction q && !(decide (q = id.val) && levelOf p b id && limitEnabled b id)) := by
  have h := id.isLt
  unfold sampledDirection cutFires
  by_cases hl : levelOf p b id <;> by_cases he : limitEnabled b id <;> by_cases hq : q = id.val <;>
    by_cases hd : getBit b.direction id.val <;>
    simp_all [getBit_setBit]
  all_goals omega

end Sys2Proof.Machine
end

