-- ==== Sys2Proof/Laws/Step.lean ====
section
/-! SUPPORT. What an operation and a step can do, once: every invariant is a case analysis of `exec_next` and `step_next`. -/

namespace Sys2Proof.Machine

/-! ## The meanings over the shared operations -/

theorem exec_rd (a : RegAddr) (s : State) :
    exec (.rd a) s = whenRunning s fun s => { s with rdata := busRead a s } := rfl

theorem exec_wrCommit (v : Byte) (s : State) :
    exec (.wrCommit v) s = whenRunning s fun s => { s with dirty := true } := rfl

theorem exec_wrNop (a : RegAddr) (v : Byte) (s : State) : exec (.wrNop a v) s = whenRunning s fun s => s := rfl

theorem exec_pinchg (p : Pins) (s : State) : exec (.pinchg p) s = whenRunning s (sampleAll p) := rfl

theorem exec_restore (s : State) (h : s.phase = .startup) : exec .restore s = .next (restoreAll s) := by
  simp [exec, execRestore, h]

/-- A bus write of a register answers the register write, when the block runs. -/
theorem exec_writeInstr (r : Reg) (v : Byte) (s : State) :
    exec (writeInstr r v) s = whenRunning s (writeReg r v) := by
  cases r <;> rfl

theorem exec_writeInstr_next (r : Reg) (v : Byte) (s t : State) (h : exec (writeInstr r v) s = .next t) :
    s.phase = .running ∧ t = writeReg r v s :=
  whenRunning_next s t (writeReg r v) (exec_writeInstr r v s ▸ h)

/-- Everything an operation can do when it answers a next state. -/
theorem exec_next (i : Instr) (s t : State) (h : exec i s = .next t) :
    (s.phase = .running ∧
      ((∃ a, i = .rd a ∧ t = { s with rdata := busRead a s }) ∨
       (∃ r v, i = writeInstr r v ∧ t = writeReg r v s) ∨
       (∃ v, i = .wrCommit v ∧ t = { s with dirty := true }) ∨
       (∃ a v, i = .wrNop a v ∧ t = s) ∨
       (∃ p, i = .pinchg p ∧ t = sampleAll p s) ∨
       (i = .flushBegin ∧ s.dirty = true ∧ s.flushBuf = none ∧ t = { s with flushBuf := some s.bank }) ∨
       (i = .flushEnd ∧ ∃ b, s.flushBuf = some b ∧
          t = { s with nv := b, flushBuf := none, dirty := false, fx := s.fx ++ [.nvStore b] }))) ∨
    (s.phase = .startup ∧ i = .restore ∧ t = restoreAll s) := by
  cases i
  case rd a =>
    obtain ⟨hp, ht⟩ := whenRunning_next s t (fun s => { s with rdata := busRead a s }) h
    exact .inl ⟨hp, .inl ⟨a, rfl, ht⟩⟩
  case wrCommit v =>
    obtain ⟨hp, ht⟩ := whenRunning_next s t (fun s => { s with dirty := true }) h
    exact .inl ⟨hp, .inr (.inr (.inl ⟨v, rfl, ht⟩))⟩
  case wrNop a v =>
    obtain ⟨hp, ht⟩ := whenRunning_next s t (fun s => s) h
    exact .inl ⟨hp, .inr (.inr (.inr (.inl ⟨a, v, rfl, ht⟩)))⟩
  case pinchg p =>
    obtain ⟨hp, ht⟩ := whenRunning_next s t (sampleAll p) h
    exact .inl ⟨hp, .inr (.inr (.inr (.inr (.inl ⟨p, rfl, ht⟩))))⟩
  case flushBegin =>
    obtain ⟨hp, hd, hf, ht⟩ := execFlushBegin_next _ _ h
    exact .inl ⟨hp, .inr (.inr (.inr (.inr (.inr (.inl ⟨rfl, hd, hf, ht⟩)))))⟩
  case flushEnd =>
    obtain ⟨hp, b, hb, ht⟩ := execFlushEnd_next _ _ h
    exact .inl ⟨hp, .inr (.inr (.inr (.inr (.inr (.inr ⟨rfl, b, hb, ht⟩)))))⟩
  case restore =>
    obtain ⟨hp, ht⟩ := execRestore_next _ _ h
    exact .inr ⟨hp, rfl, ht⟩
  case wrSlaveAddr v =>
    obtain ⟨hp, ht⟩ := exec_writeInstr_next .slaveAddr v s t h
    exact .inl ⟨hp, .inr (.inl ⟨.slaveAddr, v, rfl, ht⟩)⟩
  case wrStatus v =>
    obtain ⟨hp, ht⟩ := exec_writeInstr_next .status v s t h
    exact .inl ⟨hp, .inr (.inl ⟨.status, v, rfl, ht⟩)⟩
  case wrDirection v =>
    obtain ⟨hp, ht⟩ := exec_writeInstr_next .direction v s t h
    exact .inl ⟨hp, .inr (.inl ⟨.direction, v, rfl, ht⟩)⟩
  case wrReserved v =>
    obtain ⟨hp, ht⟩ := exec_writeInstr_next .reserved v s t h
    exact .inl ⟨hp, .inr (.inl ⟨.reserved, v, rfl, ht⟩)⟩
  case wrSpeed0 v =>
    obtain ⟨hp, ht⟩ := exec_writeInstr_next .speed0 v s t h
    exact .inl ⟨hp, .inr (.inl ⟨.speed0, v, rfl, ht⟩)⟩
  case wrSpeed1 v =>
    obtain ⟨hp, ht⟩ := exec_writeInstr_next .speed1 v s t h
    exact .inl ⟨hp, .inr (.inl ⟨.speed1, v, rfl, ht⟩)⟩
  case wrInopts0 v =>
    obtain ⟨hp, ht⟩ := exec_writeInstr_next .inopts0 v s t h
    exact .inl ⟨hp, .inr (.inl ⟨.inopts0, v, rfl, ht⟩)⟩
  case wrInopts1 v =>
    obtain ⟨hp, ht⟩ := exec_writeInstr_next .inopts1 v s t h
    exact .inl ⟨hp, .inr (.inl ⟨.inopts1, v, rfl, ht⟩)⟩
  case wrIntmask0 v =>
    obtain ⟨hp, ht⟩ := exec_writeInstr_next .intMask0 v s t h
    exact .inl ⟨hp, .inr (.inl ⟨.intMask0, v, rfl, ht⟩)⟩
  case wrIntmask1 v =>
    obtain ⟨hp, ht⟩ := exec_writeInstr_next .intMask1 v s t h
    exact .inl ⟨hp, .inr (.inl ⟨.intMask1, v, rfl, ht⟩)⟩

/-- Everything a step can do when it answers a next state: an operation on the state less the request that was taken, a
power cycle, or nothing. -/
theorem step_next (s t : State) (h : step s = .next t) :
    (∃ w rest i, s.pending = .request w :: rest ∧ decode w = .ok i ∧ exec i { s with pending := rest } = .next t) ∨
    (∃ rest, s.pending = .powerCycle :: rest ∧ t = powerCycle { s with pending := rest }) ∨
    (∃ i, s.pending = [] ∧ ownOperation s = some i ∧ exec i s = .next t) ∨
    (s.pending = [] ∧ ownOperation s = none ∧ t = s) := by
  unfold step at h
  split at h
  · next hp =>
    unfold stepIdle at h
    split at h
    · next i hi => exact .inr (.inr (.inl ⟨i, hp, hi, h⟩))
    · next hn => exact .inr (.inr (.inr ⟨hp, hn, by simpa using h.symm⟩))
  · next rest hp => exact .inr (.inl ⟨rest, hp, by simpa using h.symm⟩)
  · next w rest hp =>
    unfold stepRequest at h
    split at h
    · next i hi => exact .inl ⟨w, rest, i, hp, hi, h⟩
    · cases h

/-- With nothing pending, the block's own agents: `RESTORE` at startup, then the flush step that is enabled (R174, R196). -/
theorem ownOperation_eq_some (s : State) (i : Instr) (h : ownOperation s = some i) :
    (s.phase = .startup ∧ i = .restore) ∨
    (s.phase = .running ∧ i = .flushEnd ∧ s.flushBuf ≠ none) ∨
    (s.phase = .running ∧ i = .flushBegin ∧ s.dirty = true ∧ s.flushBuf = none) := by
  unfold ownOperation at h
  split at h
  · next hp => exact .inl ⟨hp, by simpa using h.symm⟩
  · next hp =>
    split at h
    · next hf =>
      refine .inr (.inl ⟨hp, by simpa using h.symm, ?_⟩)
      rw [Option.isSome_iff_ne_none] at hf
      exact hf
    · next hf =>
      split at h
      · next hd => exact .inr (.inr ⟨hp, by simpa using h.symm, hd, by simpa using hf⟩)
      · cases h

end Sys2Proof.Machine
end

