-- ==== Sys2Proof/Tests/Slice0.lean ====
section
/-! SUPPORT. Tests. Expected values come from spec/95_test_vectors.md (the section is named at each group) or are written out
from the descriptor layout of 30_encoding.md R93 to R95; none is the model's own answer. The second half has, for every
obligation with hypotheses, a theorem that a concrete state and operands meet them all. -/

namespace Sys2Proof.Tests

open Sys2Proof Sys2Proof.Machine

/-! ## Helpers -/

/-- Ten bytes, address 0 first. -/
def bytes (a b c d e f g h i j : Byte) : RegBank :=
  { slaveAddr := a, status := b, direction := c, reserved := d, speed0 := e,
    speed1 := f, inopts0 := g, inopts1 := h, intMask0 := i, intMask1 := j }

/-- A running block with that bank, direction pins and lines equal to the bits of the bank, other latches 0. -/
def runningWith (b : RegBank) : State :=
  { State.reset with
    bank := b
    out := { zeroLatches with dirPin := b.direction.setWidth 4, intLine := b.status.extractLsb' 4 2 } }

/-- The block just powered, with that storage. -/
def poweredWith (nv : RegBank) : State := { State.reset with nv := nv, phase := .startup }

/-- What `f` sees of the next state, if there is one. -/
def observe {α : Type} (i : Instr) (s : State) (f : State → α) : Option α :=
  match exec i s with
  | .next t => some (f t)
  | .fault _ => none
  | .refused _ => none

/-! ## Well-formedness: the one check of `Instr.wellFormed`, on each kind of term it refuses (R142) -/

theorem test_wf_refuses_nop_of_register : (Instr.wrNop 3 0).wellFormed = false := by decide
theorem test_wf_refuses_nop_of_last_register : (Instr.wrNop 9 0).wellFormed = false := by decide
theorem test_wf_refuses_nop_of_commit : (Instr.wrNop 127 0).wellFormed = false := by decide
theorem test_wf_accepts_nop_bounds :
    (Instr.wrNop 10 0).wellFormed ∧ (Instr.wrNop 126 0).wellFormed ∧ (Instr.wrNop 128 0).wellFormed := by decide

/-! ## Decoding: one descriptor per constructor, bit by bit: class, zero bit, address, data (R93 to R95, R108) -/

theorem test_decode_rd : decode 0b000_0_00000111_00000000 = .ok (.rd 7) := by rfl
theorem test_decode_wrSlaveAddr : decode 0b001_0_00000000_01000010 = .ok (.wrSlaveAddr 0x42) := by rfl
theorem test_decode_wrStatus : decode 0b001_0_00000001_11101111 = .ok (.wrStatus 0xEF) := by rfl
theorem test_decode_wrDirection : decode 0b001_0_00000010_11111010 = .ok (.wrDirection 0xFA) := by rfl
theorem test_decode_wrReserved : decode 0b001_0_00000011_11111111 = .ok (.wrReserved 0xFF) := by rfl
theorem test_decode_wrSpeed0 : decode 0b001_0_00000100_10000000 = .ok (.wrSpeed0 0x80) := by rfl
theorem test_decode_wrSpeed1 : decode 0b001_0_00000101_01000000 = .ok (.wrSpeed1 0x40) := by rfl
theorem test_decode_wrInopts0 : decode 0b001_0_00000110_00010101 = .ok (.wrInopts0 0x15) := by rfl
theorem test_decode_wrInopts1 : decode 0b001_0_00000111_00000010 = .ok (.wrInopts1 0x02) := by rfl
theorem test_decode_wrIntmask0 : decode 0b001_0_00001000_00000100 = .ok (.wrIntmask0 0x04) := by rfl
theorem test_decode_wrIntmask1 : decode 0b001_0_00001001_00000001 = .ok (.wrIntmask1 0x01) := by rfl
theorem test_decode_wrCommit : decode 0b001_0_01111111_10101011 = .ok (.wrCommit 0xAB) := by rfl
theorem test_decode_wrNop : decode 0b001_0_11001000_01010101 = .ok (.wrNop 200 0x55) := by rfl
theorem test_decode_pinchg : decode 0b010_0_00000000_0000_0101 = .ok (.pinchg 0b0101) := by rfl
theorem test_decode_flushBegin : decode 0b011_0_00000000_00000000 = .ok .flushBegin := by rfl
theorem test_decode_flushEnd : decode 0b100_0_00000000_00000000 = .ok .flushEnd := by rfl
theorem test_decode_restore : decode 0b101_0_00000000_00000000 = .ok .restore := by rfl

theorem test_decode_refuses_no_class : decode 0b111_0_00000000_00000000 = .error .noSuchClass := by rfl
theorem test_decode_refuses_zero_bit : decode 0b000_1_00000001_00000000 = .error .zeroBitSet := by rfl
theorem test_decode_refuses_operand_bit : decode 0b101_0_00000001_00000000 = .error .operandBitSet := by rfl
theorem test_table_word_too_long : decodeTableWord 24 0x100100 = none := by rfl
theorem test_fetched_word_runs : step (State.reset.withFetchWord 24 0x20205) =
    exec (.wrDirection 0x05) State.reset := by rfl
theorem test_fetched_restore_runs : step (State.reset.withFetchWord 24 0xA0000) =
    .next (restoreAll { State.reset with phase := .startup }) := by rfl
theorem test_fetched_flushEnd_runs : step (State.reset.withFetchWord 24 0x80000) =
    .next { State.reset with fx := zeroRestoreFx ++ [.nvStore zeroImage] } := by rfl

/-! ## Operations, one step each (95_test_vectors.md; the row is in the name or the comment) -/

/-- The bank of 2.1. -/
def bank21 : RegBank := bytes 0x42 0x15 0x05 0x00 0x80 0x00 0x11 0x22 0x04 0x08

theorem test_rd_7 : observe (.rd 7) (runningWith bank21) (·.rdata) = some 0x22 := by decide
theorem test_rd_127 : observe (.rd 127) (runningWith bank21) (·.rdata) = some 0x00 := by decide

-- 2.4
theorem test_wrSlaveAddr : observe (.wrSlaveAddr 0x42) State.reset (fun t => (t.bank.slaveAddr, t.out.busAddr)) =
    some (0x42, 0x42) := by decide

-- 2.2: s 0x25, v 0x1A; and s 0x3F, v 0x20
theorem test_wrStatus_clears_flag1 :
    observe (.wrStatus 0x1A) (runningWith (bytes 0x20 0x25 0 0 0 0 0 0 0 0)) (fun t => (t.bank.status, t.out.intLine)) =
      some (0x05, 0b00) := by decide
theorem test_wrStatus_clears_flag0 :
    observe (.wrStatus 0x20) (runningWith (bytes 0x20 0x3F 0 0 0 0 0 0 0 0)) (fun t => (t.bank.status, t.out.intLine)) =
      some (0x2F, 0b10) := by decide

-- 2.3
theorem test_wrDirection_drops_high_bits :
    observe (.wrDirection 0x13) State.reset (fun t => (t.bank.direction, t.out.dirPin)) = some (0x03, 0b0011) := by decide
theorem test_wrDirection_other_pins :
    observe (.wrDirection 0x0A) (runningWith (bytes 0 0 5 0 0 0 0 0 0 0)) (fun t => (t.bank.direction, t.out.dirPin)) =
      some (0x0A, 0b1010) := by decide

-- 2.4
theorem test_wrReserved : observe (.wrReserved 0xFF) State.reset (·.bank.reserved) = some 0x00 := by decide

/-- Both channels enabled, duties 0x80 and 0x40. -/
def bothEnabled : State :=
  { State.reset with
    bank := bytes 0x20 0 0 0 0x80 0x40 0 0 0 0
    out := { zeroLatches with pwmEn := 0b11, pwmDuty0 := 0x80, pwmDuty1 := 0x40 } }

-- 2.4
theorem test_wrSpeed0_stale_duty :
    observe (.wrSpeed0 0x00) bothEnabled (fun t => (t.bank.speed0, t.out.pwmEn, t.out.pwmDuty0, t.out.pwmDuty1)) =
      some (0x00, 0b10, 0x80, 0x40) := by decide
theorem test_wrSpeed0_enables :
    observe (.wrSpeed0 0x01) State.reset (fun t => (t.bank.speed0, t.out.pwmEn, t.out.pwmDuty0)) =
      some (0x01, 0b01, 0x01) := by decide
theorem test_wrSpeed1_enables :
    observe (.wrSpeed1 0x40) State.reset (fun t => (t.bank.speed1, t.out.pwmEn, t.out.pwmDuty1)) =
      some (0x40, 0b10, 0x40) := by decide
theorem test_wrSpeed1_disables :
    observe (.wrSpeed1 0x00) bothEnabled (fun t => (t.bank.speed1, t.out.pwmEn)) = some (0x00, 0b01) := by decide

-- 2.4
theorem test_wrInopts0_pullups :
    observe (.wrInopts0 0x15) State.reset (fun t => (t.bank.inopts0, t.out.pullup)) = some (0x15, 0b0001) := by decide
theorem test_wrInopts0_unused_bits :
    observe (.wrInopts0 0xC0) { State.reset with out := { zeroLatches with pullup := 0b1111 } }
      (fun t => (t.bank.inopts0, t.out.pullup)) = some (0xC0, 0b1100) := by decide
theorem test_wrInopts1_pullup3 :
    observe (.wrInopts1 0x02) State.reset (fun t => (t.bank.inopts1, t.out.pullup)) = some (0x02, 0b1000) := by decide
theorem test_wrInopts1_pullup2 :
    observe (.wrInopts1 0x01) State.reset (fun t => (t.bank.inopts1, t.out.pullup)) = some (0x01, 0b0100) := by decide

-- 2.4: the last row, and `WR 9, 0xFF`
theorem test_wrIntmask0_keeps_line :
    observe (.wrIntmask0 0x00) (runningWith (bytes 0x20 0x14 0 0 0 0 0 0 4 0))
      (fun t => (t.bank.intMask0, t.bank.status, t.out.intLine)) = some (0x00, 0x14, 0b01) := by decide
theorem test_wrIntmask1 : observe (.wrIntmask1 0xFF) State.reset (·.bank.intMask1) = some 0xFF := by decide

-- 2.5
theorem test_wrCommit : observe (.wrCommit 0xAB) State.reset (fun t => (t.dirty, t.bank)) =
    some (true, zeroImage) := by decide
theorem test_wrNop : exec (.wrNop 200 0x55) State.reset = .next State.reset := by rfl

-- 2.6: rows 8 and 6
theorem test_pinchg_row8 :
    observe (.pinchg 0b1010) (runningWith (bytes 0x20 0x00 0x0A 0x00 0x10 0x10 0x10 0x20 0x01 0x08))
      (fun t => (t.bank, t.out.dirPin, t.out.intLine)) =
      some (bytes 0x20 0x3A 0x02 0x00 0x10 0x10 0x10 0x20 0x01 0x08, 0b0010, 0b11) := by decide +kernel
theorem test_pinchg_row6 :
    observe (.pinchg 0b0000) (runningWith (bytes 0x20 0x00 0x01 0x00 0x00 0x00 0x14 0x00 0x00 0x00))
      (fun t => (t.bank, t.out.dirPin, t.out.intLine)) =
      some (bytes 0x20 0x01 0x00 0x00 0x00 0x00 0x14 0x00 0x00 0x00, 0b0000, 0b00) := by decide +kernel

/-- A commit was requested on the bank of program P3. -/
def committed : State :=
  { State.reset with
    bank := bytes 0x20 0 0x05 0 0 0x40 0 0 0 0
    out := { zeroLatches with busAddr := 0x20, dirPin := 0b0101, pwmEn := 0b10, pwmDuty1 := 0x40 }
    dirty := true }

/-- Its flush is in progress, and the bank has changed since (P3, before step 8). -/
def flushing : State :=
  { committed with
    bank := bytes 0x20 0 0x0A 0 0 0x40 0 0 0 0
    out := { committed.out with dirPin := 0b1010 }
    flushBuf := some committed.bank }

-- 2.8, P3
theorem test_flushBegin : observe .flushBegin committed (fun t => (t.flushBuf, t.dirty, t.nv)) =
    some (some (bytes 0x20 0 0x05 0 0 0x40 0 0 0 0), true, zeroImage) := by decide
theorem test_flushBegin_not_enabled : observe .flushBegin flushing (·.dirty) = none := by decide
theorem test_flushEnd : observe .flushEnd flushing (fun t => (t.nv, t.flushBuf, t.dirty, t.bank)) =
    some (bytes 0x20 0 0x05 0 0 0x40 0 0 0 0, none, false, bytes 0x20 0 0x0A 0 0 0x40 0 0 0 0) := by decide
theorem test_flushEnd_not_enabled : observe .flushEnd State.reset (·.dirty) = none := by decide

/-- The fourth row of 2.7. -/
def image27 : RegBank := bytes 0x42 0x35 0xF5 0x99 0x00 0x7F 0x3F 0x00 0x0F 0x00

-- 2.7: the rows hold for storage that is not blank
theorem test_restore_bank (h : Config.isBlank image27 = false) :
    observe .restore (poweredWith image27) (fun t => (t.bank, t.nv)) =
      some (bytes 0x42 0x35 0x05 0x00 0x00 0x7F 0x3F 0x00 0x0F 0x00, image27) := by
  simp only [observe, exec_restore (poweredWith image27) rfl, restoreAll_eq, loadedBank]
  simp only [poweredWith, h]
  decide
theorem test_restore_latches (h : Config.isBlank image27 = false) :
    observe .restore (poweredWith image27)
      (fun t => (t.out.busAddr, t.out.dirPin, t.out.pwmEn, t.out.pwmDuty1, t.out.pullup)) =
      some (0x42, 0b0101, 0b10, 0x7F, 0b0011) := by
  simp only [observe, exec_restore (poweredWith image27) rfl, restoreAll_eq, loadedBank]
  simp only [poweredWith, h]
  decide

-- 2.10
theorem test_codec : getBit (0x14 : Byte) 2 = true ∧ getBit (0x14 : Byte) 3 = false ∧ setBit (0x00 : Byte) 4 true = 0x10 ∧
    setBit (0xFF : Byte) 0 false = 0xFE ∧ setBit (0x7F : Byte) 7 true = 0xFF := by decide

/-! ## Witnesses: for each obligation with hypotheses, operands and a state that meet them all, at the bounds of its clauses -/

/-- Mask bit 2 of line 0, limit and direction of input 0, consistent latches. -/
def masked : State := runningWith (bytes 0 0x04 0x01 0 0 0 0x10 0 0x04 0)

/-- `masked` with those things to do next. -/
def presented (l : List Stimulus) : State := { masked with pending := l }

theorem witness_StepRunsDecodedOperation :
    (presented [.request 0x20205]).pending = .request 0x20205 :: [] ∧ decode 0x20205 = .ok (.wrDirection 0x05) ∧
    (presented [.request 0x4000F, .powerCycle]).pending = .request 0x4000F :: [.powerCycle] ∧
    decode 0x4000F = .ok (.pinchg 0b1111) := ⟨rfl, rfl, rfl, rfl⟩

theorem witness_StepRefusesNonOperations :
    (presented [.request 0x10100]).pending = .request 0x10100 :: [] ∧ decode 0x10100 = .error .zeroBitSet :=
  ⟨rfl, rfl⟩

theorem witness_DecodeEncodeAgree :
    (Instr.wrNop 10 0).wellFormed ∧ (Instr.wrNop 126 0).wellFormed ∧ (Instr.wrNop 128 0).wellFormed ∧
    (Instr.wrNop 255 0xFF).wellFormed ∧ (Instr.pinchg 0b1111).wellFormed ∧ (Instr.rd 255).wellFormed := by decide

theorem witness_EncodeDecodeAgree :
    decode 0x2FFFF = .ok (.wrNop 255 0xFF) ∧ decode 0x0FF00 = .ok (.rd 255) ∧ decode 0x27F00 = .ok (.wrCommit 0) :=
  ⟨rfl, rfl, rfl⟩

/-- The addresses at which the clauses meet. -/
theorem witness_WriteDecoderSelectsByAddress :
    (9 : RegAddr).toNat < 10 ∧ 10 ≤ (10 : RegAddr).toNat ∧ (10 : RegAddr) ≠ 127 ∧ 10 ≤ (126 : RegAddr).toNat ∧
    (126 : RegAddr) ≠ 127 ∧ (128 : RegAddr) ≠ 127 ∧ 10 ≤ (255 : RegAddr).toNat ∧ (255 : RegAddr) ≠ 127 := by decide

theorem witness_BusReadReturnsTheByte :
    (runningWith bank21).phase = .running ∧ Reg.intMask1.addr = 9 ∧ 10 ≤ (10 : RegAddr).toNat ∧
    10 ≤ (127 : RegAddr).toNat ∧ 10 ≤ (255 : RegAddr).toNat := by decide

theorem witness_WrSlaveAddrResult : (runningWith bank21).phase = .running := rfl
theorem witness_WrDirectionResult : masked.phase = .running := rfl
theorem witness_WrReservedResult : (runningWith (bytes 0 0 0 0x99 0 0 0 0 0 0)).phase = .running := rfl
theorem witness_WrInoptsResults : masked.phase = .running := rfl
theorem witness_WrIntmaskResults : masked.phase = .running := rfl
theorem witness_WrCommitSetsDirty : masked.phase = .running ∧ masked.dirty = false := ⟨rfl, rfl⟩

/-- Each flag bit of the written byte at both values. -/
theorem witness_WrStatusResult :
    (runningWith (bytes 0 0x3F 0 0 0 0 0 0 0 0)).phase = .running ∧ getBit (0xEF : Byte) 4 = false ∧
    getBit (0xEF : Byte) 5 = true ∧ getBit (0xDF : Byte) 4 = true ∧ getBit (0xDF : Byte) 5 = false := by decide

/-- Both cases of the written byte. -/
theorem witness_WrSpeedResults : bothEnabled.phase = .running ∧ (0 : Byte) = 0#8 ∧ (1 : Byte) ≠ 0#8 := by decide

theorem witness_WrNopChangesNothing :
    masked.phase = .running ∧ 10 ≤ (10 : RegAddr).toNat ∧ (10 : RegAddr) ≠ 127 ∧
    10 ≤ (126 : RegAddr).toNat ∧ (126 : RegAddr) ≠ 127 ∧ 10 ≤ (128 : RegAddr).toNat ∧ (128 : RegAddr) ≠ 127 := by decide

/-- A write of `status` with flag bit 4 clear, on a block whose flags are set. -/
theorem witness_StatusIsReadOnlyOnTheBus :
    presenter (.wrStatus 0xEF) = .busEngine ∧ getBit (0xEF : Byte) 4 = false ∧
    ∃ t, exec (.wrStatus 0xEF) (runningWith (bytes 0 0x3F 0 0 0 0 0 0 0 0)) = .next t ∧ getBit t.bank.status 5 = true :=
  ⟨rfl, rfl, _, rfl, by decide⟩

theorem witness_BusKeepsForcedZeros :
    presenter (.wrDirection 0xFF) = .busEngine ∧ (runningWith bank21).bank.reserved = 0#8 ∧
    (∃ t, exec (.wrDirection 0xFF) (runningWith bank21) = .next t) ∧
    ∃ t, exec (.wrSpeed0 1) (runningWith (bytes 0 0 0xF5 0 0 0 0 0 0 0)) = .next t ∧ getBit t.bank.direction 7 = true :=
  ⟨rfl, rfl, ⟨_, rfl⟩, _, rfl, by decide⟩

theorem witness_AcknowledgeReleasesTheLine :
    (runningWith (bytes 0 0x3F 0 0 0 0 0 0 0 0)).phase = .running ∧ getBit (0xEF : Byte) (4 + (0 : Fin 2).val) = false ∧
    getBit (0xEF : Byte) (4 + (1 : Fin 2).val) = true := by decide

theorem witness_RepeatedWriteIsIdempotent : masked.phase = .running := rfl

theorem masked_consistent : Consistent masked :=
  ⟨rfl, rfl, by decide, by decide, by decide, by decide, rfl⟩

theorem masked_linesMatch : ∀ k, LineMatchesFlag k masked := by
  unfold LineMatchesFlag
  decide

theorem witness_RewritingTheCommittedByteKeepsState :
    masked.phase = .running ∧ Consistent masked ∧ ∀ k, LineMatchesFlag k masked :=
  ⟨rfl, masked_consistent, masked_linesMatch⟩

theorem witness_HiddenStateIsInvisibleToCallbacks :
    isCallback (.pinchg 0b0001) = true ∧ (∃ t, exec (.pinchg 0b0001) masked = .next t) ∧
    isCallback (.wrCommit 0) = true ∧ ∃ t, exec (.wrCommit 0) flushing = .next t :=
  ⟨rfl, ⟨_, rfl⟩, rfl, _, rfl⟩

/-- A state in which one input is cut off, and one in which none is. -/
theorem witness_PinChangeClosedForm :
    masked.phase = .running ∧ limitEnabled masked.bank 0 = true ∧ State.reset.phase = .running ∧
    limitEnabled State.reset.bank 0 = false := by decide

theorem witness_InputOrderDoesNotMatter : [(3 : Fin 4), 1, 0, 2].Perm [0, 1, 2, 3] := by decide

theorem witness_OnlyPinChangesRaiseLines :
    ∃ t, exec (.pinchg 0b0100) masked = .next t ∧ t.fx = masked.fx ++ [.setIntLine 0 true] ∧
      getBit masked.out.intLine (0 : Fin 2).val = false ∧ getBit t.out.intLine (0 : Fin 2).val = true :=
  ⟨_, rfl, by decide +kernel, by decide, by decide +kernel⟩

theorem witness_CallbacksKeepLineMatchingFlag :
    isCallback (.pinchg 0b0100) = true ∧ (∃ t, exec (.pinchg 0b0100) masked = .next t) ∧ LineMatchesFlag 0 masked :=
  ⟨rfl, ⟨_, rfl⟩, masked_linesMatch 0⟩

theorem witness_PinChangeRights : masked.phase = .running := rfl

theorem witness_RaiseThenAcknowledge :
    masked.phase = .running ∧ getBit masked.bank.intMask0 2 = true ∧ getBit (0xEF : Byte) 4 = false := by decide

theorem witness_CutoffIsNotLatched :
    masked.phase = .running ∧ limitEnabled masked.bank 0 = true ∧
    (getBit (0b0001 : Pins) (0 : Fin 4).val ^^ inverted masked.bank 0) = true ∧
    getBit (0x01 : Byte) (0 : Fin 4).val = true := by decide

/-- One next state for each clause: a direction write, a pin change that cuts off, one that does not, `RESTORE`, another. -/
theorem witness_DirPinWriters :
    (∃ t, exec (.wrDirection 0x0A) masked = .next t) ∧
    (∃ t, exec (.pinchg 0b0001) masked = .next t ∧ t.bank.direction ≠ masked.bank.direction) ∧
    (∃ t, exec (.pinchg 0b0000) masked = .next t ∧ t.bank.direction = masked.bank.direction) ∧
    (∃ t, exec .restore (poweredWith image27) = .next t) ∧
    ∃ t, exec (.wrSpeed0 1) masked = .next t :=
  ⟨⟨_, rfl⟩, ⟨_, rfl, by decide +kernel⟩, ⟨_, rfl, by decide +kernel⟩, ⟨_, rfl⟩, _, rfl⟩

theorem witness_PwmEnableWriters :
    (∃ t, exec (.wrSpeed0 0) bothEnabled = .next t) ∧ (∃ t, exec (.wrSpeed1 0) bothEnabled = .next t) ∧
    (∃ t, exec .restore (poweredWith image27) = .next t) ∧ ∃ t, exec (.pinchg 0b0001) masked = .next t :=
  ⟨⟨_, rfl⟩, ⟨_, rfl⟩, ⟨_, rfl⟩, _, rfl⟩

theorem witness_PullupWriters :
    (∃ t, exec (.wrInopts0 0x03) masked = .next t) ∧ (∃ t, exec (.wrInopts1 0x02) masked = .next t) ∧
    (∃ t, exec .restore (poweredWith image27) = .next t) ∧ ∃ t, exec (.pinchg 0b0001) masked = .next t :=
  ⟨⟨_, rfl⟩, ⟨_, rfl⟩, ⟨_, rfl⟩, _, rfl⟩

theorem witness_RestoreTable : (poweredWith image27).phase = .startup := rfl

/-- Enabled, not enabled for want of a commit, and not enabled while a flush is in progress. -/
theorem witness_FlushBeginSnapshots :
    (committed.phase = .running ∧ committed.dirty = true ∧ committed.flushBuf = none) ∧
    (State.reset.phase = .running ∧ State.reset.dirty = false) ∧ flushing.phase = .running ∧ flushing.flushBuf ≠ none := by
  decide

theorem witness_FlushEndStores :
    (flushing.phase = .running ∧ flushing.flushBuf = some committed.bank) ∧
    State.reset.phase = .running ∧ State.reset.flushBuf = none := by decide

theorem witness_SnapshotSurvivesCallbacks :
    committed.phase = .running ∧ committed.dirty = true ∧ committed.flushBuf = none ∧
    ∀ i ∈ [Instr.wrDirection 0xFA, .wrCommit 0, .pinchg 0b0001], isCallback i = true := by decide

/-- Storage equal to a consistent bank, then a power cycle and a `RESTORE` presented. -/
theorem witness_PowerCycleRoundTrip :
    let s := { State.reset with pending := [.powerCycle, .request (encode .restore)] }
    s.phase = .running ∧ Consistent s ∧ s.nv = s.bank ∧ s.flushBuf = none ∧
      s.pending = .powerCycle :: .request (encode .restore) :: [] :=
  ⟨rfl, ⟨rfl, rfl, by decide, by decide, by decide, by decide, rfl⟩, rfl, rfl, rfl⟩

theorem witness_PowerCycleKeepsStorage :
    (presented [.powerCycle]).pending = .powerCycle :: [] ∧ (presented [.powerCycle]).flushBuf = none := ⟨rfl, rfl⟩

theorem witness_StorageIsReadAndWrittenOnlyByItsOwners :
    (∃ t, exec (.wrDirection 0x0A) flushing = .next t) ∧ ∃ t, exec .flushEnd flushing = .next t :=
  ⟨⟨_, rfl⟩, _, rfl⟩

theorem witness_DirtyFlagWriters :
    (∃ t, exec (.wrCommit 0) State.reset = .next t) ∧ (∃ t, exec .flushEnd flushing = .next t) ∧
    (∃ t, exec .restore (poweredWith image27) = .next t) ∧ ∃ t, exec .flushBegin committed = .next t :=
  ⟨⟨_, rfl⟩, ⟨_, rfl⟩, ⟨_, rfl⟩, _, rfl⟩

/-- An operation of each agent that is admitted, and one of each that is not. -/
theorem witness_OperationsCompleteExactlyWhenAdmitted :
    (Admitted .restore (poweredWith image27) ∧ Admitted (.rd 0) masked ∧ Admitted (.pinchg 0) masked ∧
      Admitted .flushBegin committed ∧ Admitted .flushEnd flushing) ∧
    ¬ Admitted .restore masked ∧ ¬ Admitted (.rd 0) (poweredWith image27) ∧ ¬ Admitted (.pinchg 0) (poweredWith image27) ∧
      ¬ Admitted .flushBegin flushing ∧ ¬ Admitted .flushEnd committed := by
  simp [Admitted, presenter, poweredWith, masked, runningWith, committed, flushing, State.reset]

theorem witness_CallbacksAlwaysComplete :
    masked.phase = .running ∧ ∀ i ∈ [Instr.rd 1, .wrStatus 0, .pinchg 0b0001], isCallback i = true := by decide

theorem witness_ModelFieldsFrame :
    (∃ t, exec (.rd 1) masked = .next t) ∧ ∃ t, exec .restore (poweredWith image27) = .next t := ⟨⟨_, rfl⟩, _, rfl⟩

theorem witness_UnusedStatusBitsAreConstant :
    ∃ t, exec (.pinchg 0b0110) (runningWith (bytes 0x20 0xC0 0 0 0 0 0 0 0 0)) = .next t := ⟨_, rfl⟩

/-- A step that runs an operation, from a consistent state with a flush in progress, and a power cycle. -/
theorem witness_InvariantKeptByEveryStep :
    BlockInv flushing ∧ (∃ t, step flushing = .next t) ∧
    BlockInv (presented [.powerCycle]) ∧ ∃ t, step (presented [.powerCycle]) = .next t := by
  refine ⟨fun _ => ⟨⟨rfl, rfl, by decide, by decide, by decide, by decide, rfl⟩, fun b hb => ?_⟩, ⟨_, rfl⟩,
    fun _ => ⟨⟨rfl, rfl, by decide, by decide, by decide, by decide, rfl⟩, fun b hb => ?_⟩, _, rfl⟩
  · cases hb
    decide
  · cases hb

theorem witness_RestoreEstablishesTheInvariants :
    (poweredWith image27).phase = .startup ∧
    ∃ t, exec .restore (poweredWith zeroImage) = .next t := ⟨rfl, _, rfl⟩

theorem witness_BackgroundLoopFlushes :
    committed.phase = .running ∧ committed.pending = [] ∧ committed.dirty = true ∧ committed.flushBuf = none := by decide

theorem witness_FieldCodecLaws : (0 : Fin 8) ≠ 7 := by decide

theorem witness_StartupCodeRunsRestore : (poweredWith image27).phase = .startup ∧ (poweredWith image27).pending = [] :=
  ⟨rfl, rfl⟩

end Sys2Proof.Tests
end

section
/-! PROOFS. Who drives the direction pins (spec 10_state.md R36). The one delicate operation is `PINCHG`: it samples four
inputs in turn, and a cutoff seen at one of them must not be undone by a later one. Cutoffs only clear direction bits, and
that makes the effect of a single input compose. -/

namespace Sys2Proof.Machine

/-! ## Pins driven from a direction byte -/

/-- The four pins driven from a byte `c` equal its bits 3:0. -/
theorem getBit_pins_of_eq_setWidth (o : Latches) (c : Byte) (h : o.dirPin = c.setWidth 4) (i : Fin 4) :
    getBit o.dirPin i.val = getBit c i.val := by
  simp [h]

/-- The direction handler drives the pins with the very byte that is committed (R134). -/
theorem writeReg_direction_pins (v : Byte) (s : State) :
    (writeReg .direction v s).out.dirPin = (writeReg .direction v s).bank.direction.setWidth 4 := by
  simp [handlerOut, handlerByte]

/-- `RESTORE` leaves every pin equal to its direction bit (R49). -/
theorem getBit_restoreAll_dirPin (s : State) (i : Fin 4) :
    getBit (restoreAll s).out.dirPin i.val = getBit (restoreAll s).bank.direction i.val := by
  have hmask : getBit 0x0F#8 i.val = true := by revert i; decide
  simp [restoreAll_eq, replayOut_dirPin, hmask]

/-! ## Limit cutoffs -/

/-- From `s` to `t` some limit cutoffs happened, or none: direction bits were at most cleared, and the pins were driven
from the new direction byte when it changed and were left alone when it did not (R36, R154). -/
structure CutoffsOnly (s t : State) : Prop where
  /-- No direction bit is set. -/
  clears : ∀ q, getBit t.bank.direction q = true → getBit s.bank.direction q = true
  /-- Nothing happened, or the direction changed and the pins follow it. -/
  pins : (t.bank.direction = s.bank.direction ∧ t.out.dirPin = s.out.dirPin) ∨
    (t.bank.direction ≠ s.bank.direction ∧ t.out.dirPin = t.bank.direction.setWidth 4)

/-- Cutoffs compose: bits that are only cleared never come back to the byte they started from. -/
theorem CutoffsOnly.trans {s t u : State} (hst : CutoffsOnly s t) (htu : CutoffsOnly t u) : CutoffsOnly s u where
  clears q hq := hst.clears q (htu.clears q hq)
  pins := by
    obtain ⟨hdir, hpin⟩ | ⟨hne, hpin⟩ := htu.pins
    · rw [hdir, hpin]
      exact hst.pins
    · obtain ⟨hdir', hpin'⟩ | ⟨hne', -⟩ := hst.pins
      · exact .inr ⟨hdir' ▸ hne, hpin⟩
      · refine .inr ⟨fun hback => hne' (eq_of_getBit _ _ fun q _ => ?_), hpin⟩
        exact Bool.eq_iff_iff.mpr ⟨hst.clears q, fun hs => htu.clears q (hback ▸ hs)⟩

/-- A cutoff that fires changes the direction byte: the bit it clears was set (R154). -/
theorem sampledDirection_ne (p : Pins) (b : RegBank) (id : Fin 4) (h : cutFires p b id = true) :
    sampledDirection p b id ≠ b.direction := by
  simp only [cutFires, Bool.and_eq_true] at h
  obtain ⟨⟨hlvl, hlim⟩, hbit⟩ := h
  intro heq
  have hcleared : getBit (sampledDirection p b id) id.val = false := by
    simp [getBit_sampledDirection, hlvl, hlim]
  rw [heq, hbit] at hcleared
  cases hcleared

/-- Sampling one input clears its direction bit and drives the pins, or does neither (R154). -/
theorem sampleInput_cutoffsOnly (p : Pins) (id : Fin 4) (s : State) : CutoffsOnly s (sampleInput p id s) where
  clears q hq := by
    rw [sampleInput_bank, getBit_sampledDirection, Bool.and_eq_true] at hq
    exact hq.1
  pins := by
    cases hcut : cutFires p s.bank id
    case false => exact .inl (by simp [sampledDirection, sampledOut, hcut])
    case true =>
      refine .inr ⟨?_, by simp [sampledDirection, sampledOut, hcut]⟩
      simpa using sampledDirection_ne p s.bank id hcut

/-- Sampling all four composes their cutoffs (R150). -/
theorem sampleAll_cutoffsOnly (p : Pins) (s : State) : CutoffsOnly s (sampleAll p s) :=
  (sampleInput_cutoffsOnly p 0 s).trans <| (sampleInput_cutoffsOnly p 1 _).trans <|
    (sampleInput_cutoffsOnly p 2 _).trans (sampleInput_cutoffsOnly p 3 _)

theorem exec_pinchg_cutoffsOnly (p : Pins) (s t : State) (h : exec (.pinchg p) s = .next t) : CutoffsOnly s t := by
  obtain ⟨-, rfl⟩ := whenRunning_next s t (sampleAll p) (exec_pinchg p s ▸ h)
  exact sampleAll_cutoffsOnly p s

/-! ## Everything else -/

/-- Only a direction write, a pin change that changed direction, and `RESTORE` write the direction pins (R36). -/
theorem exec_dirPin_frame (i : Instr) (s t : State) (h : exec i s = .next t) (hwr : ∀ v, i ≠ .wrDirection v)
    (hres : i ≠ .restore) (hpin : ∀ p, i = .pinchg p → t.bank.direction = s.bank.direction) :
    t.out.dirPin = s.out.dirPin := by
  obtain ⟨-, hrun⟩ | ⟨-, hi, -⟩ := exec_next i s t h
  · obtain ⟨a, -, rfl⟩ | ⟨r, v, rfl, rfl⟩ | ⟨v, -, rfl⟩ | ⟨a, v, -, rfl⟩ | ⟨p, rfl, -⟩ | ⟨-, -, -, rfl⟩ |
      ⟨-, b, -, rfl⟩ := hrun
    · rfl
    · have hr : r ≠ .direction := by
        rintro rfl
        exact hwr v rfl
      rw [writeReg_out, handlerOut_dirPin r v s.out hr]
    · rfl
    · rfl
    · obtain ⟨-, hsame⟩ | ⟨hne, -⟩ := (exec_pinchg_cutoffsOnly p s t h).pins
      · exact hsame
      · exact absurd (hpin p rfl) hne
    · rfl
    · rfl
  · exact absurd hi hres

/-- Settles O32: the handler and `RESTORE` by their equations, `PINCHG` by composing the four inputs' cutoffs, and the frame
by the cases of `exec_next`. -/
theorem dirPinWriters : Obligations.DirPinWriters := by
  refine ⟨fun v s t h i => ?_, fun p s t h hne i => ?_, fun s t h i => ?_, exec_dirPin_frame⟩
  · obtain ⟨-, rfl⟩ := exec_writeInstr_next .direction v s t h
    exact getBit_pins_of_eq_setWidth _ _ (writeReg_direction_pins v s) i
  · obtain ⟨hsame, -⟩ | ⟨-, hpins⟩ := (exec_pinchg_cutoffsOnly p s t h).pins
    · exact absurd hsame hne
    · exact getBit_pins_of_eq_setWidth _ _ hpins i
  · obtain ⟨-, rfl⟩ := execRestore_next s t h
    exact getBit_restoreAll_dirPin s i

end Sys2Proof.Machine
end

section
/-! PROOFS. The field codec (spec 40_regbank_fieldcodec.md R123, R124): the shift-and-mask definitions, and the laws of
`getBit` and `setBit`. The laws compare the two sides bit by bit with `getBit_setBit`, at any width. -/

namespace Sys2Proof.Machine

section

variable {n : Nat} (b : BitVec n)

/-- `getBit` is the lowest bit of the byte shifted right (R123); a vector without bits has no lowest bit to compare. -/
theorem getBit_eq_shift_and_one (p : Nat) (hn : 0 < n) : getBit b p = ((b >>> p) &&& 1#n == 1#n) := by
  have hlow : (b >>> p).getLsbD 0 = getBit b p := by simp [getBit]
  rw [BitVec.and_one_eq_setWidth_ofBool_getLsbD, hlow]
  cases getBit b p
  case false => simp [hn.ne']
  case true => simp [BitVec.setWidth_ofNat_one_eq_ofNat_one_of_lt]

/-- The shifted value of `setBit`, with the bit written as the number 0 or 1 (R124). -/
theorem setBit_eq_mask_or (p : Nat) (v : Bool) :
    setBit b p v = (b &&& ~~~(1#n <<< p)) ||| ((if v then 1#n else 0#n) <<< p) := by
  cases v <;> simp [setBit, BitVec.setWidth_ofNat_one_eq_ofNat_one_of_lt]

theorem getBit_setBit_same (p : Nat) (v : Bool) (hp : p < n) : getBit (setBit b p v) p = v := by
  rw [getBit_setBit, if_pos ⟨rfl, hp⟩]

theorem getBit_setBit_ne (p q : Nat) (v : Bool) (hne : q ≠ p) : getBit (setBit b p v) q = getBit b q := by
  rw [getBit_setBit, if_neg fun h => hne h.1]

/-- Writing back the bit that is already there changes nothing. -/
theorem setBit_getBit_self (p : Nat) : setBit b p (getBit b p) = b := by
  apply eq_of_getBit
  intro i hi
  by_cases hip : i = p
  · subst hip
    exact getBit_setBit_same b i _ hi
  · exact getBit_setBit_ne b p i _ hip

/-- The later of two writes of one bit wins. -/
theorem setBit_setBit_same (p : Nat) (u v : Bool) : setBit (setBit b p u) p v = setBit b p v := by
  apply eq_of_getBit
  intro i hi
  by_cases hip : i = p
  · subst hip
    rw [getBit_setBit_same _ i v hi, getBit_setBit_same b i v hi]
  · rw [getBit_setBit_ne _ p i v hip, getBit_setBit_ne _ p i u hip, getBit_setBit_ne b p i v hip]

end

/-- Settles O52: the definitions and the laws of the codec at width 8. -/
theorem fieldCodecLaws : Obligations.FieldCodecLaws := by
  intro b p q u v
  refine ⟨getBit_eq_shift_and_one b p.val (by decide), setBit_eq_mask_or b p.val v,
    getBit_setBit_same b p.val v p.isLt, fun hne => ?_, setBit_getBit_self b p.val, setBit_setBit_same b p.val u v⟩
  exact getBit_setBit_ne b p.val q.val v (Fin.val_ne_of_ne hne)

end Sys2Proof.Machine
end

section
/-! PROOFS. The bus read (spec 40_regbank_fieldcodec.md R120). -/

namespace Sys2Proof.Machine

/-- A running block takes `RD` and puts the byte read on the read port (R120). -/
theorem exec_rd_running (a : RegAddr) (s : State) (h : s.phase = .running) :
    exec (.rd a) s = .next { s with rdata := busRead a s } := by
  rw [exec_rd, whenRunning_eq s _ h]

/-- The class-000 descriptor of an address, its operand bits 0, decodes to `RD` of that address (R95). -/
theorem decode_packDesc_rd (a : RegAddr) : decode (packDesc 0b000 a 0) = .ok (.rd a) := by
  simp [decode, decodeClass]

/-- Settles O8: a running `RD` stores what `busRead` answers, and that is split at address 10. -/
theorem busReadReturnsTheByte : Obligations.BusReadReturnsTheByte := by
  intro s hrun
  refine ⟨fun r => ?_, fun a ha => ?_, decode_packDesc_rd⟩
  · rw [exec_rd_running r.addr s hrun, busRead_addr]
  · rw [exec_rd_running a s hrun, busRead_out_of_range a s ha]

end Sys2Proof.Machine
end

section
/-! PROOFS. The bus writes of the registers that drive no PWM channel and no pull-up (spec 41_write_handlers.md R132 to R135,
R140, R141). A write of any register is the equation `writeReg_eq`; what is left for each is to read its handler's latches,
effects and committed byte in the spec's words. -/

namespace Sys2Proof.Machine

/-! ## Any register -/

/-- A class-001 descriptor has no bits that must be 0, so it decodes to the write of its address (R95, R97). -/
theorem decode_packWrite (a : RegAddr) (v : Byte) : decode (packWrite a v) = .ok (decodeWrite a v) := by
  simp [decode, decodeClass, packWrite]

theorem decode_packWrite_addr (r : Reg) (v : Byte) : decode (packWrite r.addr v) = .ok (writeInstr r v) := by
  rw [decode_packWrite]
  cases r <;> rfl

/-- A running block takes the write of a register (R130, R145). -/
theorem exec_writeInstr_running (r : Reg) (v : Byte) (s : State) (h : s.phase = .running) :
    exec (writeInstr r v) s = .next (writeReg r v s) := by
  rw [exec_writeInstr, whenRunning_eq s _ h]

/-- A write whose handler drives no latch and emits no effect changes its own register alone. -/
theorem writeReg_of_no_side_effect (r : Reg) (v : Byte) (s : State) (hout : handlerOut r v s.out = s.out)
    (hfx : handlerFx r v = []) :
    writeReg r v s = { s with bank := bankSet s.bank r (handlerByte r v s.bank.status) } := by
  rw [writeReg_eq, hout, hfx, List.append_nil]

/-! ## STATUS -/

/-- `~(bit4 | bit5)` is the spec's 0xCF (R133). -/
theorem statusKeep_eq : statusKeep = 0xCF#8 := by decide

/-- A write of `status` leaves line `k` asserted when it was and its incoming flag bit is 1: the releases of the two lines
do not disturb each other (R133). -/
theorem getBit_handlerOut_status_intLine (v : Byte) (s : State) (k : Fin 2) :
    getBit (handlerOut .status v s.out).intLine k.val = (getBit v (4 + k.val) && getBit s.out.intLine k.val) := by
  have hreleases : (releaseLine v 1 (releaseLine v 0 s)).out = handlerOut .status v s.out :=
    congrArg (fun answer => answer.1.out) (handler_eq .status v s)
  rw [← hreleases, getBit_releaseLine, getBit_releaseLine]
  match k with
  | 0 => rfl
  | 1 => rfl

/-- Line `k` is released exactly when its incoming flag bit is 0, whatever the flag was (R133). -/
theorem releaseFx_eq (v : Byte) (k : Fin 2) :
    (if releasesLine v k then [Effect.setIntLine k false] else []) =
      if getBit v (4 + k.val) then [] else [.setIntLine k false] := by
  rw [releasesLine, intFlagBit]
  cases getBit v (4 + k.val) <;> rfl

theorem handlerFx_status (v : Byte) :
    handlerFx .status v = (if getBit v 4 then [] else [.setIntLine 0 false]) ++
      (if getBit v 5 then [] else [.setIntLine 1 false]) :=
  congrArg₂ (· ++ ·) (releaseFx_eq v 0) (releaseFx_eq v 1)

/-- Settles O10: the committed byte bit by bit, the lines by the two releases, the effects by the incoming bits. -/
theorem wrStatusResult : Obligations.WrStatusResult := by
  intro v s hrun
  refine ⟨decode_packWrite_addr .status v, committedStatus v s.bank.status, (handlerOut .status v s.out).intLine,
    handlerFx .status v, ?_, ?_, fun i _ h4 h5 => ?_, fun i h45 => ?_, getBit_handlerOut_status_intLine v s, ?_⟩
  · exact (exec_writeInstr_running .status v s hrun).trans (congrArg _ (writeReg_eq .status v s))
  · rw [committedStatus, statusKeep_eq]
  · rw [getBit_committedStatus, if_neg (not_or.mpr ⟨h4, h5⟩)]
  · rw [getBit_committedStatus, if_pos h45]
  · rw [handlerFx_status]

/-! ## SLAVE_ADDR -/

/-- Settles O9: the handler hands the byte to the bus engine and commits it. -/
theorem wrSlaveAddrResult : Obligations.WrSlaveAddrResult := by
  intro v s hrun
  refine ⟨decode_packWrite_addr .slaveAddr v, ?_⟩
  exact (exec_writeInstr_running .slaveAddr v s hrun).trans (congrArg _ (writeReg_eq .slaveAddr v s))

/-! ## DIRECTION -/

/-- The mask of the direction handler keeps the bits of the four pins (R134). -/
theorem getBit_and_0x0F (v : Byte) (i : Fin 4) : getBit (v &&& 0x0F#8) i.val = getBit v i.val := by
  have hmask : getBit 0x0F#8 i.val = true := by revert i; decide
  rw [getBit_and, hmask, Bool.and_true]

/-- The mask does not show in the effects: each pin is driven with its bit of the incoming byte (R134). -/
theorem dirPinFx_and_0x0F (v : Byte) : dirPinFx (v &&& 0x0F#8) = dirPinFx v := by
  have h0 : getBit (v &&& 0x0F#8) 0 = getBit v 0 := getBit_and_0x0F v 0
  have h1 : getBit (v &&& 0x0F#8) 1 = getBit v 1 := getBit_and_0x0F v 1
  have h2 : getBit (v &&& 0x0F#8) 2 = getBit v 2 := getBit_and_0x0F v 2
  have h3 : getBit (v &&& 0x0F#8) 3 = getBit v 3 := getBit_and_0x0F v 3
  rw [dirPinFx, h0, h1, h2, h3, dirPinFx]

/-- Settles O11: the masked byte is committed and drives the pins, and the mask keeps the four bits they show. -/
theorem wrDirectionResult : Obligations.WrDirectionResult := by
  intro v s hrun
  refine ⟨decode_packWrite_addr .direction v, (v &&& 0x0F#8).setWidth 4, dirPinFx (v &&& 0x0F#8), ?_, fun i => ?_, ?_⟩
  · exact (exec_writeInstr_running .direction v s hrun).trans (congrArg _ (writeReg_eq .direction v s))
  · rw [getBit_setWidth, getBit_and_0x0F, decide_eq_true i.isLt, Bool.true_and]
  · rw [dirPinFx_and_0x0F, dirPinFx]

/-! ## RESERVED and the interrupt masks -/

/-- Settles O12: the handler has no side effect and commits 0. -/
theorem wrReservedResult : Obligations.WrReservedResult := by
  intro v s hrun
  refine ⟨decode_packWrite_addr .reserved v, ?_⟩
  exact (exec_writeInstr_running .reserved v s hrun).trans
    (congrArg _ (writeReg_of_no_side_effect .reserved v s rfl rfl))

/-- Settles O15: both handlers have no side effect and commit the incoming byte. -/
theorem wrIntmaskResults : Obligations.WrIntmaskResults := by
  intro v s hrun
  refine ⟨decode_packWrite_addr .intMask0 v, decode_packWrite_addr .intMask1 v, ?_, ?_⟩
  · exact (exec_writeInstr_running .intMask0 v s hrun).trans
      (congrArg _ (writeReg_of_no_side_effect .intMask0 v s rfl rfl))
  · exact (exec_writeInstr_running .intMask1 v s hrun).trans
      (congrArg _ (writeReg_of_no_side_effect .intMask1 v s rfl rfl))

end Sys2Proof.Machine
end

section
/-! PROOFS. Raising and acknowledging an interrupt line (spec 60_exceptions.md R185, R188). Releasing is a fact about the write
of `status`, where each line answers to its own incoming bit. That nothing but a selected pin change raises a line is proved
in the contrapositive: the relation `NotRaised` between the states before and after holds of every operation but a pin change,
and of a pin change whose four inputs are all masked off; it composes, so one input at a time is enough. -/

namespace Sys2Proof.Machine

/-! ## Acknowledging -/

/-- A write of `status` commits each flag as the and of its incoming bit and itself, so the two flags are independent and
neither can be set (R133, R188). -/
theorem getBit_writeReg_status_flag (v : Byte) (s : State) (k : Fin 2) :
    getBit (writeReg .status v s).bank.status (4 + k.val) = (getBit v (4 + k.val) && getBit s.bank.status (4 + k.val)) := by
  have hflag : 4 + k.val = 4 ∨ 4 + k.val = 5 := by omega
  rw [writeReg_bank, bankSet_status, handlerByte, getBit_committedStatus, if_pos hflag]

/-- A write of `status` lets each line stay asserted when its incoming bit is 1 (R133, R188). -/
theorem getBit_writeReg_status_line (v : Byte) (s : State) (k : Fin 2) :
    getBit (writeReg .status v s).out.intLine k.val = (getBit v (4 + k.val) && getBit s.out.intLine k.val) := by
  rw [writeReg_out, getBit_handlerOut_status_intLine]

/-- A write of another register keeps `status` (R52). -/
theorem writeReg_status_frame (r : Reg) (v : Byte) (s : State) (hr : r ≠ .status) :
    (writeReg r v s).bank.status = s.bank.status := by
  rw [writeReg_bank, ← bankGet_status, bankGet_bankSet, if_neg hr.symm, bankGet_status]

/-- A write of any register sets no flag. -/
theorem writeReg_sets_no_flag (r : Reg) (v : Byte) (s : State) (k : Fin 2)
    (h : getBit (writeReg r v s).bank.status (4 + k.val) = true) : getBit s.bank.status (4 + k.val) = true := by
  by_cases hr : r = .status
  · rw [hr, getBit_writeReg_status_flag, Bool.and_eq_true] at h
    exact h.2
  · rwa [writeReg_status_frame r v s hr] at h

/-- No bus operation sets a flag: register writes by the lemma above, and the others do not write `status` (R188, R193). -/
theorem exec_busEngine_sets_no_flag (i : Instr) (s t : State) (k : Fin 2) (hbus : presenter i = .busEngine)
    (h : exec i s = .next t) (hflag : getBit t.bank.status (4 + k.val) = true) :
    getBit s.bank.status (4 + k.val) = true := by
  obtain ⟨-, hrun⟩ | ⟨-, rfl, -⟩ := exec_next i s t h
  · obtain ⟨a, -, rfl⟩ | ⟨r, v, -, rfl⟩ | ⟨v, -, rfl⟩ | ⟨a, v, -, rfl⟩ | ⟨p, rfl, -⟩ | ⟨rfl, -⟩ | ⟨rfl, -⟩ := hrun
    · exact hflag
    · exact writeReg_sets_no_flag r v s k hflag
    · exact hflag
    · exact hflag
    · cases hbus
    · cases hbus
    · cases hbus
  · cases hbus

/-- Settles O20: flag and line are each anded with the incoming bit of their own line, a read writes neither, and no bus
operation sets a flag. -/
theorem acknowledgeReleasesTheLine : Obligations.AcknowledgeReleasesTheLine := by
  intro v s hrun
  refine ⟨writeReg .status v s, exec_writeInstr_running .status v s hrun, fun k hclear => ?_, fun k hkeep => ?_,
    ⟨_, exec_rd_running 1 s hrun, rfl, rfl⟩, fun i u k => exec_busEngine_sets_no_flag i s u k⟩
  · rw [getBit_writeReg_status_flag, getBit_writeReg_status_line, hclear]
    exact ⟨rfl, rfl⟩
  · rw [getBit_writeReg_status_flag, getBit_writeReg_status_line, hkeep]
    exact ⟨rfl, rfl⟩

/-! ## Not raising a line -/

/-- From `s` to `t` line `k` was not turned on, and its assertion is not among the effects emitted (R185, R193). -/
structure NotRaised (k : Fin 2) (s t : State) : Prop where
  /-- A line that is asserted after was asserted before. -/
  line : getBit t.out.intLine k.val = true → getBit s.out.intLine k.val = true
  /-- The trace grew by effects that do not assert the line. -/
  trace : ∃ es, t.fx = s.fx ++ es ∧ .setIntLine k true ∉ es

section

variable {k : Fin 2} {s t u : State}

theorem NotRaised.trans (hst : NotRaised k s t) (htu : NotRaised k t u) : NotRaised k s u where
  line h := hst.line (htu.line h)
  trace := by
    obtain ⟨es, hes, hnes⟩ := hst.trace
    obtain ⟨fs, hfs, hnfs⟩ := htu.trace
    exact ⟨es ++ fs, by rw [hfs, hes, List.append_assoc], by simp [hnes, hnfs]⟩

/-- A change that touches neither the lines nor the trace raises nothing. -/
theorem NotRaised.of_eq (hline : t.out.intLine = s.out.intLine) (hfx : t.fx = s.fx) : NotRaised k s t where
  line h := hline ▸ h
  trace := ⟨[], by rw [hfx, List.append_nil], List.not_mem_nil⟩

/-- `NotRaised` denies what R185 speaks of, whichever way the effects are split off the trace. -/
theorem NotRaised.not_raised (h : NotRaised k s t) (es : List Effect) (hes : t.fx = s.fx ++ es) :
    ¬ ((getBit s.out.intLine k.val = false ∧ getBit t.out.intLine k.val = true) ∨ .setIntLine k true ∈ es) := by
  obtain ⟨fs, hfs, hnfs⟩ := h.trace
  obtain rfl : es = fs := List.append_cancel_left (hes.symm.trans hfs)
  rintro (⟨hoff, hon⟩ | hmem)
  · exact Bool.false_ne_true (hoff.symm.trans (h.line hon))
  · exact hnfs hmem

end

/-! ## Everything but a pin change -/

/-- A direction drive touches no line. -/
theorem setIntLine_notMem_dirPinFx (k : Fin 2) (a : Bool) (c : Byte) : .setIntLine k a ∉ dirPinFx c := by
  simp [dirPinFx]

/-- No handler emits the assertion of a line; the one that drives the lines only releases them (R133, R193). -/
theorem setIntLine_true_notMem_handlerFx (k : Fin 2) (r : Reg) (v : Byte) : .setIntLine k true ∉ handlerFx r v := by
  cases r
  case status => simp only [handlerFx]; split <;> split <;> simp
  case direction => exact setIntLine_notMem_dirPinFx k true _
  case speed0 => simp only [handlerFx]; split <;> simp
  case speed1 => simp only [handlerFx]; split <;> simp
  all_goals simp [handlerFx]

/-- A bus write does not raise a line (R185). -/
theorem writeReg_notRaised (k : Fin 2) (r : Reg) (v : Byte) (s : State) : NotRaised k s (writeReg r v s) where
  line h := handlerOut_intLine r v s.out k.val (writeReg_out r v s ▸ h)
  trace := ⟨handlerFx r v, writeReg_fx r v s, setIntLine_true_notMem_handlerFx k r v⟩

/-- `RESTORE` does not raise a line: the replay runs handlers, and those only release (R49, R185). -/
theorem restoreAll_notRaised (k : Fin 2) (s : State) : NotRaised k s (restoreAll s) where
  line h := by
    simp only [restoreAll_eq, replayOut_intLine, Bool.and_eq_true] at h
    exact h.2
  trace := by
    refine ⟨.nvLoad :: replayFx (loadedBank s.nv), by rw [restoreAll_eq], fun hmem => ?_⟩
    obtain h | h := List.mem_cons.mp hmem
    · cases h
    · obtain ⟨r, -, hr⟩ := List.mem_flatMap.mp h
      exact setIntLine_true_notMem_handlerFx k r _ hr

/-- No operation but a pin change raises a line (R185). -/
theorem exec_notRaised (k : Fin 2) (i : Instr) (s t : State) (h : exec i s = .next t) (hpin : ∀ p, i ≠ .pinchg p) :
    NotRaised k s t := by
  obtain ⟨-, hrun⟩ | ⟨-, -, rfl⟩ := exec_next i s t h
  · obtain ⟨a, -, rfl⟩ | ⟨r, v, -, rfl⟩ | ⟨v, -, rfl⟩ | ⟨a, v, -, rfl⟩ | ⟨p, hi, -⟩ | ⟨-, -, -, rfl⟩ |
      ⟨-, b, -, rfl⟩ := hrun
    · exact .of_eq rfl rfl
    · exact writeReg_notRaised k r v s
    · exact .of_eq rfl rfl
    · exact .of_eq rfl rfl
    · exact absurd hi (hpin p)
    · exact .of_eq rfl rfl
    · exact ⟨id, [.nvStore b], rfl, by simp⟩
  · exact restoreAll_notRaised k s

/-! ## A pin change -/

/-- Line `k` after one input: asserted when the mask bit is set, and as it was otherwise (R155). -/
theorem getBit_sampledOut_intLine (p : Pins) (b : RegBank) (id : Fin 4) (o : Latches) (k : Fin 2) :
    getBit (sampledOut p b id o).intLine k.val = (getBit (intMaskOf b k) id.val || getBit o.intLine k.val) := by
  cases h0 : getBit b.intMask0 id.val <;> cases h1 : getBit b.intMask1 id.val <;>
    match k with
    | 0 => simp [sampledOut, h0, h1, getBit_setBit]
    | 1 => simp [sampledOut, h0, h1, getBit_setBit]

/-- One input emits the assertion of line `k` exactly when the mask bit is set (R155). -/
theorem setIntLine_true_mem_sampledFx (p : Pins) (b : RegBank) (id : Fin 4) (k : Fin 2) :
    .setIntLine k true ∈ sampledFx p b id ↔ getBit (intMaskOf b k) id.val = true := by
  have hcut : .setIntLine k true ∉ if cutFires p b id then dirPinFx (setBit b.direction id.val false) else [] := by
    split
    · exact setIntLine_notMem_dirPinFx k true _
    · exact List.not_mem_nil
  match k with
  | 0 => simp [sampledFx, hcut]
  | 1 => simp [sampledFx, hcut]

/-- Sampling keeps the masks (R157). -/
theorem intMaskOf_sampleInput (p : Pins) (id : Fin 4) (s : State) (k : Fin 2) :
    intMaskOf (sampleInput p id s).bank k = intMaskOf s.bank k := by
  rw [sampleInput_bank]
  rfl

/-- An input that the mask of line `k` does not select does not raise it (R155, R185). -/
theorem sampleInput_notRaised (p : Pins) (id : Fin 4) (s : State) (k : Fin 2)
    (hmask : getBit (intMaskOf s.bank k) id.val = false) : NotRaised k s (sampleInput p id s) where
  line h := by
    rwa [sampleInput_out, getBit_sampledOut_intLine, hmask, Bool.false_or] at h
  trace := by
    refine ⟨sampledFx p s.bank id, sampleInput_fx p id s, fun hmem => ?_⟩
    rw [setIntLine_true_mem_sampledFx, hmask] at hmem
    cases hmem

/-- A pin change does not raise a line whose mask selects no input (R155, R185). -/
theorem sampleAll_notRaised (p : Pins) (s : State) (k : Fin 2)
    (hmask : ∀ id : Fin 4, getBit (intMaskOf s.bank k) id.val = false) : NotRaised k s (sampleAll p s) :=
  (sampleInput_notRaised p 0 s k (hmask 0)).trans <|
    (sampleInput_notRaised p 1 _ k (by simp only [intMaskOf_sampleInput, hmask])).trans <|
      (sampleInput_notRaised p 2 _ k (by simp only [intMaskOf_sampleInput, hmask])).trans
        (sampleInput_notRaised p 3 _ k (by simp only [intMaskOf_sampleInput, hmask]))

/-- Settles O26: what raised line `k` was a pin change by `exec_notRaised`, and its mask selected an input by
`sampleAll_notRaised`. -/
theorem onlyPinChangesRaiseLines : Obligations.OnlyPinChangesRaiseLines := by
  intro i s t k es h hes hraised
  have hpin : ∃ p, i = .pinchg p := by
    by_contra hno
    exact (exec_notRaised k i s t h (not_exists.mp hno)).not_raised es hes hraised
  refine ⟨hpin, ?_⟩
  obtain ⟨p, rfl⟩ := hpin
  obtain ⟨-, rfl⟩ := whenRunning_next s t (sampleAll p) (exec_pinchg p s ▸ h)
  by_contra hno
  refine (sampleAll_notRaised p s k fun id => ?_).not_raised es hes hraised
  exact Bool.eq_false_iff.mpr fun hbit => hno ⟨id, hbit⟩

end Sys2Proof.Machine
end

section
/-! PROOFS. The decoder and the encoder (spec 30_encoding.md R93 to R98). Both directions of the round trip go through the
fields of a descriptor: packing is undone field by field, and the write decoder selects by address alone. -/

namespace Sys2Proof.Machine

/-! ## The write decoder, by address -/

/-- Every address below `N` is a register's (R21, R71). -/
theorem exists_reg_addr (a : RegAddr) (h : a.toNat < 10) : ∃ r : Reg, r.addr = a := by
  generalize hn : a.toNat = n at h
  rw [eq_ofNat_of_toNat a n hn]
  interval_cases n
  · exact ⟨.slaveAddr, rfl⟩
  · exact ⟨.status, rfl⟩
  · exact ⟨.direction, rfl⟩
  · exact ⟨.reserved, rfl⟩
  · exact ⟨.speed0, rfl⟩
  · exact ⟨.speed1, rfl⟩
  · exact ⟨.inopts0, rfl⟩
  · exact ⟨.inopts1, rfl⟩
  · exact ⟨.intMask0, rfl⟩
  · exact ⟨.intMask1, rfl⟩

@[simp] theorem decodeWrite_addr (r : Reg) (v : Byte) : decodeWrite r.addr v = writeInstr r v := by
  cases r <;> rfl

@[simp] theorem decodeWrite_commitAddr (v : Byte) : decodeWrite Config.commitAddr v = .wrCommit v := rfl

/-- From address 10 on only the commit address is told apart (R97, R142). -/
theorem decodeWrite_of_ge (a : RegAddr) (v : Byte) (h : 10 ≤ a.toNat) :
    decodeWrite a v = if a = Config.commitAddr then .wrCommit v else .wrNop a v := by
  unfold decodeWrite
  split <;> first | rfl | omega

theorem decodeWrite_nop (a : RegAddr) (v : Byte) (h : 10 ≤ a.toNat) (hne : a ≠ Config.commitAddr) :
    decodeWrite a v = .wrNop a v := by
  rw [decodeWrite_of_ge a v h, if_neg hne]

/-- An address is a register's, the commit address, or the address of a no-op (R71 to R74). -/
theorem regAddr_cases (a : RegAddr) :
    (∃ r : Reg, r.addr = a) ∨ a = Config.commitAddr ∨ (10 ≤ a.toNat ∧ a ≠ Config.commitAddr) := by
  by_cases hlt : a.toNat < 10
  · exact .inl (exists_reg_addr a hlt)
  · by_cases hc : a = Config.commitAddr
    · exact .inr (.inl hc)
    · exact .inr (.inr ⟨by omega, hc⟩)

theorem nopAddr_iff (a : RegAddr) : nopAddr a = true ↔ 10 ≤ a.toNat ∧ a ≠ Config.commitAddr := by
  simp [nopAddr]

/-- Settles O7: a write descriptor decodes to the write of its address, and addresses are split by `regAddr_cases`. -/
theorem writeDecoderSelectsByAddress : Obligations.WriteDecoderSelectsByAddress := by
  refine ⟨decode_packWrite_addr, fun v => ?_, fun a v h hne => ?_, exists_reg_addr⟩
  · rw [decode_packWrite, decodeWrite_commitAddr]
  · rw [decode_packWrite, decodeWrite_nop a v h hne]

/-! ## From an operation to its descriptor and back -/

@[simp] theorem encode_writeInstr (r : Reg) (v : Byte) : encode (writeInstr r v) = packWrite r.addr v := by
  cases r <;> rfl

/-- The four pin levels survive in the operand byte, and its upper half is 0 (R95). -/
theorem decode_packDesc_pinchg (p : Pins) : decode (packDesc 0b010 0 (p.setWidth 8)) = .ok (.pinchg p) := by
  have hlow : (p.setWidth 8).extractLsb' 0 4 = p := by
    apply BitVec.eq_of_getLsbD_eq
    intro i hi
    simp [hi, show i < 8 by omega]
  have hhigh : (p.setWidth 8).extractLsb' 4 4 = 0#4 := by
    apply BitVec.eq_of_getLsbD_eq
    intro i hi
    simp [hi]
  simp [decode, decodeClass, hlow, hhigh]

/-- Settles O4: a write decodes by its address, the other classes by their class code and operand bits. -/
theorem decodeEncodeAgree : Obligations.DecodeEncodeAgree := by
  intro i hwf
  cases i
  case rd a => exact decode_packDesc_rd a
  case wrSlaveAddr v => exact decode_packWrite_addr .slaveAddr v
  case wrStatus v => exact decode_packWrite_addr .status v
  case wrDirection v => exact decode_packWrite_addr .direction v
  case wrReserved v => exact decode_packWrite_addr .reserved v
  case wrSpeed0 v => exact decode_packWrite_addr .speed0 v
  case wrSpeed1 v => exact decode_packWrite_addr .speed1 v
  case wrInopts0 v => exact decode_packWrite_addr .inopts0 v
  case wrInopts1 v => exact decode_packWrite_addr .inopts1 v
  case wrIntmask0 v => exact decode_packWrite_addr .intMask0 v
  case wrIntmask1 v => exact decode_packWrite_addr .intMask1 v
  case wrCommit v => exact decode_packWrite Config.commitAddr v
  case wrNop a v =>
    obtain ⟨hge, hne⟩ := (nopAddr_iff a).mp hwf
    rw [encode, decode_packWrite, decodeWrite_nop a v hge hne]
  case pinchg p => exact decode_packDesc_pinchg p
  case flushBegin => rfl
  case flushEnd => rfl
  case restore => rfl

/-! ## From a descriptor to its operation and back -/

/-- The write decoder loses neither address nor data (R97). -/
theorem encode_decodeWrite (a : RegAddr) (v : Byte) : encode (decodeWrite a v) = packWrite a v := by
  obtain ⟨r, rfl⟩ | rfl | ⟨hge, hne⟩ := regAddr_cases a
  · rw [decodeWrite_addr, encode_writeInstr]
  · rfl
  · rw [decodeWrite_nop a v hge hne, encode]

/-- A byte whose upper half is 0 is its lower half. -/
theorem setWidth_extractLsb'_low (d : Byte) (h : d.extractLsb' 4 4 = 0#4) : (d.extractLsb' 0 4).setWidth 8 = d := by
  apply BitVec.eq_of_getLsbD_eq
  intro i hi
  by_cases hlow : i < 4
  · simp [hlow, hi]
  · have hbit : (d.extractLsb' 4 4).getLsbD (i - 4) = false := by rw [h]; exact BitVec.getLsbD_zero
    have hlt : i - 4 < 4 := by omega
    rw [BitVec.getLsbD_extractLsb', show 4 + (i - 4) = i by omega, decide_eq_true hlt, Bool.true_and] at hbit
    simp [hlow, hbit]

/-- Settles O5: class by class, `encode` packs the fields that `decode` read off the word. -/
theorem encodeDecodeAgree : Obligations.EncodeDecodeAgree := by
  intro w i h
  obtain ⟨hzero, hclass⟩ := decode_eq_ok w i h
  have hw := packDesc_fields w hzero
  obtain ⟨hc, hd, rfl⟩ | ⟨hc, rfl⟩ | ⟨hc, ha, hhigh, rfl⟩ | ⟨hc, ha, hd, rfl⟩ | ⟨hc, ha, hd, rfl⟩ | ⟨hc, ha, hd, rfl⟩ :=
    hclass
  · exact ⟨by rw [encode, ← hw, hc, hd, descAddr_packDesc], rfl⟩
  · exact ⟨by rw [encode_decodeWrite, packWrite, ← hc, hw], decodeWrite_wellFormed _ _⟩
  · exact ⟨by rw [encode, setWidth_extractLsb'_low _ hhigh, ← ha, ← hc, hw], rfl⟩
  · exact ⟨by rw [encode, ← hw, hc, ha, hd], rfl⟩
  · exact ⟨by rw [encode, ← hw, hc, ha, hd], rfl⟩
  · exact ⟨by rw [encode, ← hw, hc, ha, hd], rfl⟩

/-! ## The accepted words, in numbers -/

theorem descCls_toNat (w : Descriptor) : (descCls w).toNat = w.toNat / 2 ^ 17 := by
  have hw := w.isLt
  rw [descCls, BitVec.extractLsb'_toNat, Nat.shiftRight_eq_div_pow]
  omega

theorem descAddr_toNat (w : Descriptor) : (descAddr w).toNat = w.toNat / 2 ^ 8 % 2 ^ 8 := by
  rw [descAddr, BitVec.extractLsb'_toNat, Nat.shiftRight_eq_div_pow]

theorem descData_toNat (w : Descriptor) : (descData w).toNat = w.toNat % 2 ^ 8 := by
  rw [descData, BitVec.extractLsb'_toNat, Nat.shiftRight_zero]

theorem descZero_eq_false_iff (w : Descriptor) : descZero w = false ↔ w.toNat / 2 ^ 16 % 2 = 0 := by
  rw [descZero, BitVec.getLsbD, Nat.testBit_eq_decide_div_mod_eq, decide_eq_false_iff_not]
  omega

theorem extractLsb'_high_eq_zero_iff (d : Byte) : d.extractLsb' 4 4 = 0#4 ↔ d.toNat / 2 ^ 4 = 0 := by
  have hd := d.isLt
  rw [← BitVec.toNat_inj, BitVec.extractLsb'_toNat, Nat.shiftRight_eq_div_pow, BitVec.toNat_ofNat]
  omega

/-- The decoder accepts a word exactly when bit 16 is 0, the class exists, and the operand bits its class does not use are
0 (R93, R94, R96). -/
theorem decode_isOk_iff (w : Descriptor) : (∃ i, decode w = .ok i) ↔ descZero w = false ∧
    ((descCls w = 0#3 ∧ descData w = 0#8) ∨ descCls w = 1#3 ∨
     (descCls w = 2#3 ∧ descAddr w = 0#8 ∧ (descData w).extractLsb' 4 4 = 0#4) ∨
     ((descCls w = 3#3 ∨ descCls w = 4#3 ∨ descCls w = 5#3) ∧ descAddr w = 0#8 ∧ descData w = 0#8)) := by
  constructor
  · rintro ⟨i, h⟩
    obtain ⟨hzero, hclass⟩ := decode_eq_ok w i h
    refine ⟨hzero, ?_⟩
    obtain ⟨hc, hd, -⟩ | ⟨hc, -⟩ | ⟨hc, ha, hhigh, -⟩ | ⟨hc, ha, hd, -⟩ | ⟨hc, ha, hd, -⟩ | ⟨hc, ha, hd, -⟩ := hclass
    · exact .inl ⟨hc, hd⟩
    · exact .inr (.inl hc)
    · exact .inr (.inr (.inl ⟨hc, ha, hhigh⟩))
    · exact .inr (.inr (.inr ⟨.inl hc, ha, hd⟩))
    · exact .inr (.inr (.inr ⟨.inr (.inl hc), ha, hd⟩))
    · exact .inr (.inr (.inr ⟨.inr (.inr hc), ha, hd⟩))
  · rintro ⟨hzero, ⟨hc, hd⟩ | hc | ⟨hc, ha, hhigh⟩ | ⟨hc | hc | hc, ha, hd⟩⟩
    · exact ⟨.rd (descAddr w), by simp [decode, decodeClass, hzero, hc, hd]⟩
    · exact ⟨decodeWrite (descAddr w) (descData w), by simp [decode, decodeClass, hzero, hc]⟩
    · exact ⟨.pinchg ((descData w).extractLsb' 0 4), by simp [decode, decodeClass, hzero, hc, ha, hhigh]⟩
    · exact ⟨.flushBegin, by simp [decode, decodeClass, decodeBare, hzero, hc, ha, hd]⟩
    · exact ⟨.flushEnd, by simp [decode, decodeClass, decodeBare, hzero, hc, ha, hd]⟩
    · exact ⟨.restore, by simp [decode, decodeClass, decodeBare, hzero, hc, ha, hd]⟩

/-- Settles O6: the conditions of `decode_isOk_iff` on the fields, read as numbers. -/
theorem decoderAcceptsExactly : Obligations.DecoderAcceptsExactly := by
  intro w
  have hw := w.isLt
  rw [decode_isOk_iff, descZero_eq_false_iff, extractLsb'_high_eq_zero_iff]
  simp only [← BitVec.toNat_inj, descCls_toNat, descAddr_toNat, descData_toNat, BitVec.toNat_ofNat]
  omega

/-! ## Requests -/

/-- Settles O3: the sixteen words of the table, each by evaluation. -/
theorem decodesTheSpecsWords : Obligations.DecodesTheSpecsWords := by
  refine ⟨?_, ?_, ?_, ?_, ?_, ?_, ?_, ?_, ?_, ?_, ?_, ?_, ?_, ?_, ?_, ?_⟩ <;> rfl

/-- A step on a pending request decodes it and drops it from the list. -/
theorem step_request (s : State) (w : Descriptor) (rest : List Stimulus) (h : s.pending = .request w :: rest) :
    step s = stepRequest w { s with pending := rest } := by
  rw [step, h]

theorem stepRequest_ok (w : Descriptor) (i : Instr) (s : State) (h : decode w = .ok i) :
    stepRequest w s = exec i s := by
  rw [stepRequest, h]

theorem stepRequest_error (w : Descriptor) (e : DecodeError) (s : State) (h : decode w = .error e) :
    stepRequest w s = .refused (.notAnOperation e) := by
  rw [stepRequest, h]

/-- Settles O1: the word decodes to a well-formed operation by O5, and the step runs it. -/
theorem stepRunsDecodedOperation : Obligations.StepRunsDecodedOperation := by
  intro s w rest i hpending hw
  obtain ⟨-, hwf⟩ := encodeDecodeAgree w i hw
  exact ⟨hwf, (step_request s w rest hpending).trans (stepRequest_ok w i _ hw)⟩

/-- Settles O2: a rejected word is refused before the state is looked at. -/
theorem stepRefusesNonOperations : Obligations.StepRefusesNonOperations := by
  intro s w rest e hpending hw
  exact (step_request s w rest hpending).trans (stepRequest_error w e _ hw)

end Sys2Proof.Machine
end

section
/-! PROOFS. The input sampler as a whole (spec 42_input_sampler.md R150 to R158): a pin change samples four inputs in turn,
and each fact below is an induction over the list of inputs that is sampled. Stated for any list, the facts mention the
inputs only through membership, and that is why their order does not matter. -/

namespace Sys2Proof.Machine

/-! ## Sampling a list of inputs -/

/-- The bank after one input (R153 to R155). -/
def sampledBank (p : Pins) (b : RegBank) (id : Fin 4) : RegBank :=
  { b with status := sampledStatus p b id, direction := sampledDirection p b id }

/-- The bank after the inputs of a list, in its order. -/
def sampledBanks (p : Pins) (ids : List (Fin 4)) (b : RegBank) : RegBank := ids.foldl (sampledBank p) b

/-- The latches after the inputs of a list. -/
def sampledOuts (p : Pins) : List (Fin 4) → RegBank → Latches → Latches
  | [], _, o => o
  | id :: ids, b, o => sampledOuts p ids (sampledBank p b id) (sampledOut p b id o)

/-- The effects of the inputs of a list. -/
def sampledFxs (p : Pins) : List (Fin 4) → RegBank → List Effect
  | [], _ => []
  | id :: ids, b => sampledFx p b id ++ sampledFxs p ids (sampledBank p b id)

/-- Everything the sampling of a list of inputs does. -/
theorem foldl_sampleInput_eq (p : Pins) (ids : List (Fin 4)) (s : State) :
    ids.foldl (fun t id => sampleInput p id t) s = { s with
      bank := sampledBanks p ids s.bank
      out := sampledOuts p ids s.bank s.out
      fx := s.fx ++ sampledFxs p ids s.bank } := by
  induction ids generalizing s with
  | nil => simp [sampledBanks, sampledOuts, sampledFxs]
  | cons id ids ih =>
    rw [List.foldl_cons, ih, sampleInput_eq]
    simp only [sampledBanks, sampledOuts, sampledFxs, List.foldl_cons, List.append_assoc]
    rfl

/-- The inputs a pin change visits, in its order (R150). -/
def allInputs : List (Fin 4) := [0, 1, 2, 3]

theorem mem_allInputs (id : Fin 4) : id ∈ allInputs := by
  revert id
  decide

/-- Everything a pin change does (R150, R157). -/
theorem sampleAll_eq (p : Pins) (s : State) :
    sampleAll p s = { s with
      bank := sampledBanks p allInputs s.bank
      out := sampledOuts p allInputs s.bank s.out
      fx := s.fx ++ sampledFxs p allInputs s.bank } :=
  foldl_sampleInput_eq p allInputs s

/-- A running block takes a pin change (R145, R150). -/
theorem exec_pinchg_running (p : Pins) (s : State) (h : s.phase = .running) :
    exec (.pinchg p) s = .next (sampleAll p s) := by
  rw [exec_pinchg, whenRunning_eq s _ h]

/-! ## What sampling leaves alone -/

/-- Sampling writes `status` and `direction` and no other register (R158). -/
theorem sampledBanks_frame (p : Pins) (ids : List (Fin 4)) (b : RegBank) :
    sampledBanks p ids b =
      { b with status := (sampledBanks p ids b).status, direction := (sampledBanks p ids b).direction } := by
  induction ids generalizing b with
  | nil => rfl
  | cons id ids ih => exact ih (sampledBank p b id)

/-- Sampling drives the direction pins and the lines and no other latch (R158). -/
theorem sampledOuts_frame (p : Pins) (ids : List (Fin 4)) (b : RegBank) (o : Latches) :
    sampledOuts p ids b o =
      { o with dirPin := (sampledOuts p ids b o).dirPin, intLine := (sampledOuts p ids b o).intLine } := by
  induction ids generalizing b o with
  | nil => rfl
  | cons id ids ih => exact ih (sampledBank p b id) (sampledOut p b id o)

section

variable (p : Pins) (b : RegBank) (id q : Fin 4)

@[simp] theorem levelOf_sampledBank : levelOf p (sampledBank p b id) q = levelOf p b q := rfl

@[simp] theorem limitEnabled_sampledBank : limitEnabled (sampledBank p b id) q = limitEnabled b q := rfl

end

/-! ## Status -/

/-- The mask of line `k` selects one of these inputs (R155). -/
def selectsAny (b : RegBank) (k : Fin 2) (ids : List (Fin 4)) : Bool := ids.any fun id => getBit (intMaskOf b k) id.val

/-- A level bit after one input. -/
theorem getBit_sampledStatus_level (p : Pins) (b : RegBank) (id q : Fin 4) :
    getBit (sampledStatus p b id) q.val = if q = id then levelOf p b q else getBit b.status q.val := by
  have hq := q.isLt
  rw [getBit_sampledStatus, if_neg (show ¬ q.val = 4 by omega), if_neg (show ¬ q.val = 5 by omega)]
  by_cases h : q = id
  · rw [if_pos h, if_pos (congrArg Fin.val h), h]
  · rw [if_neg h, if_neg (Fin.val_ne_of_ne h)]

/-- A flag after one input: its mask bit sets it (R155). -/
theorem getBit_sampledStatus_flag (p : Pins) (b : RegBank) (id : Fin 4) (k : Fin 2) :
    getBit (sampledStatus p b id) (4 + k.val) = (getBit (intMaskOf b k) id.val || getBit b.status (4 + k.val)) := by
  have hid := id.isLt
  rw [getBit_sampledStatus, if_neg (show ¬ 4 + k.val = id.val by omega)]
  match k with
  | 0 => rfl
  | 1 => rfl

/-- A sampled input's status bit is its level (R153). -/
theorem getBit_sampledBanks_level (p : Pins) (ids : List (Fin 4)) (b : RegBank) (q : Fin 4) :
    getBit (sampledBanks p ids b).status q.val = if q ∈ ids then levelOf p b q else getBit b.status q.val := by
  induction ids generalizing b with
  | nil => rfl
  | cons id ids ih =>
    refine (ih (sampledBank p b id)).trans ?_
    rw [levelOf_sampledBank, sampledBank, getBit_sampledStatus_level]
    by_cases hmem : q ∈ ids <;> simp [hmem]

/-- A flag is set when the mask selects one of the inputs, and never cleared (R155). -/
theorem getBit_sampledBanks_flag (p : Pins) (ids : List (Fin 4)) (b : RegBank) (k : Fin 2) :
    getBit (sampledBanks p ids b).status (4 + k.val) = (getBit b.status (4 + k.val) || selectsAny b k ids) := by
  induction ids generalizing b with
  | nil => exact (Bool.or_false _).symm
  | cons id ids ih =>
    refine (ih (sampledBank p b id)).trans ?_
    rw [sampledBank, getBit_sampledStatus_flag, Bool.or_comm (getBit (intMaskOf b k) id.val), Bool.or_assoc]
    rfl

/-- The two unused bits of `status` are kept (R30). -/
theorem getBit_sampledBanks_unused (p : Pins) (ids : List (Fin 4)) (b : RegBank) (j : Nat) (h : 6 ≤ j) :
    getBit (sampledBanks p ids b).status j = getBit b.status j := by
  induction ids generalizing b with
  | nil => rfl
  | cons id ids ih =>
    have hid := id.isLt
    refine (ih (sampledBank p b id)).trans ?_
    rw [sampledBank, getBit_sampledStatus, if_neg (by omega), if_neg (by omega), if_neg (by omega)]

/-! ## Direction and its pins -/

/-- A direction bit is cleared when one of the inputs is its own, active and cutoff-enabled (R154). -/
theorem getBit_sampledBanks_direction (p : Pins) (ids : List (Fin 4)) (b : RegBank) (q : Nat) :
    getBit (sampledBanks p ids b).direction q =
      (getBit b.direction q && !ids.any fun id => decide (q = id.val) && levelOf p b id && limitEnabled b id) := by
  induction ids generalizing b with
  | nil => exact (Bool.and_true _).symm
  | cons id ids ih =>
    refine (ih (sampledBank p b id)).trans ?_
    simp only [levelOf_sampledBank, limitEnabled_sampledBank]
    rw [sampledBank, getBit_sampledDirection, List.any_cons, Bool.not_or, Bool.and_assoc]

/-- A sampled input's direction bit is cleared when the input is active and cutoff-enabled (R154). -/
theorem getBit_sampledBanks_direction_input (p : Pins) (ids : List (Fin 4)) (b : RegBank) (q : Fin 4) (h : q ∈ ids) :
    getBit (sampledBanks p ids b).direction q.val =
      (getBit b.direction q.val && !(levelOf p b q && limitEnabled b q)) := by
  rw [getBit_sampledBanks_direction]
  congr 2
  rw [Bool.eq_iff_iff, List.any_eq_true]
  constructor
  · rintro ⟨id, -, hid⟩
    rw [Bool.and_assoc, Bool.and_eq_true, decide_eq_true_eq, Fin.val_inj] at hid
    exact hid.1 ▸ hid.2
  · intro hq
    exact ⟨q, h, by rw [decide_eq_true rfl, Bool.true_and, hq]⟩

/-- No input reaches the upper half of `direction` (R154). -/
theorem getBit_sampledBanks_direction_high (p : Pins) (ids : List (Fin 4)) (b : RegBank) (q : Nat) (h : 4 ≤ q) :
    getBit (sampledBanks p ids b).direction q = getBit b.direction q := by
  have hnone : (ids.any fun id => decide (q = id.val) && levelOf p b id && limitEnabled b id) = false := by
    rw [List.any_eq_false]
    intro id _
    have hne : ¬ q = id.val := by omega
    simp [hne]
  rw [getBit_sampledBanks_direction, hnone, Bool.not_false, Bool.and_true]

/-- The cutoffs of a list of inputs compose (R154). -/
theorem foldl_sampleInput_cutoffsOnly (p : Pins) (ids : List (Fin 4)) (s : State) :
    CutoffsOnly s (ids.foldl (fun t id => sampleInput p id t) s) := by
  induction ids generalizing s with
  | nil => exact ⟨fun _ => id, .inl ⟨rfl, rfl⟩⟩
  | cons id ids ih => exact (sampleInput_cutoffsOnly p id s).trans (ih _)

/-- The pins after some cutoffs: those of the new direction byte if it changed, and as they were otherwise (R36). -/
theorem CutoffsOnly.dirPin_eq {s t : State} (h : CutoffsOnly s t) :
    t.out.dirPin = if t.bank.direction = s.bank.direction then s.out.dirPin else t.bank.direction.setWidth 4 := by
  obtain ⟨hdir, hpin⟩ | ⟨hne, hpin⟩ := h.pins
  · rw [if_pos hdir, hpin]
  · rw [if_neg hne, hpin]

/-! ## Lines and effects -/

/-- A line is asserted when its mask selects one of the inputs, and never released (R155). -/
theorem getBit_sampledOuts_intLine (p : Pins) (ids : List (Fin 4)) (b : RegBank) (o : Latches) (k : Fin 2) :
    getBit (sampledOuts p ids b o).intLine k.val = (getBit o.intLine k.val || selectsAny b k ids) := by
  induction ids generalizing b o with
  | nil => exact (Bool.or_false _).symm
  | cons id ids ih =>
    refine (ih (sampledBank p b id) (sampledOut p b id o)).trans ?_
    rw [getBit_sampledOut_intLine, Bool.or_comm (getBit (intMaskOf b k) id.val), Bool.or_assoc]
    rfl

/-- The assertion of a line is emitted exactly when its mask selects one of the inputs (R155). -/
theorem setIntLine_true_mem_sampledFxs (p : Pins) (ids : List (Fin 4)) (b : RegBank) (k : Fin 2) :
    .setIntLine k true ∈ sampledFxs p ids b ↔ selectsAny b k ids = true := by
  induction ids generalizing b with
  | nil => simp [sampledFxs, selectsAny]
  | cons id ids ih =>
    rw [sampledFxs, List.mem_append, setIntLine_true_mem_sampledFx, ih, selectsAny, selectsAny, List.any_cons,
      Bool.or_eq_true]
    rfl

/-- One input never releases a line (R155). -/
theorem setIntLine_false_notMem_sampledFx (p : Pins) (b : RegBank) (id : Fin 4) (k : Fin 2) :
    .setIntLine k false ∉ sampledFx p b id := by
  rw [sampledFx, List.mem_append, List.mem_append]
  rintro ((hmem | hmem) | hmem)
  · split at hmem
    · exact setIntLine_notMem_dirPinFx k false _ hmem
    · cases hmem
  · split at hmem <;> simp at hmem
  · split at hmem <;> simp at hmem

/-- Sampling never releases a line (R155). -/
theorem setIntLine_false_notMem_sampledFxs (p : Pins) (ids : List (Fin 4)) (b : RegBank) (k : Fin 2) :
    .setIntLine k false ∉ sampledFxs p ids b := by
  induction ids generalizing b with
  | nil => exact List.not_mem_nil
  | cons id ids ih =>
    rw [sampledFxs, List.mem_append]
    rintro (hmem | hmem)
    · exact setIntLine_false_notMem_sampledFx p b id k hmem
    · exact ih _ hmem

/-! ## The order of the inputs -/

/-- Two orders of the same inputs give the same `status`: bit by bit, it depends on membership alone (R156). -/
theorem sampledBanks_status_perm (p : Pins) (b : RegBank) {ids ids' : List (Fin 4)} (h : ids.Perm ids') :
    (sampledBanks p ids b).status = (sampledBanks p ids' b).status := by
  apply eq_of_getBit
  intro i hi
  by_cases hlevel : i < 4
  · have hbit := getBit_sampledBanks_level p ids b ⟨i, hlevel⟩
    simp only [h.mem_iff] at hbit
    exact hbit.trans (getBit_sampledBanks_level p ids' b ⟨i, hlevel⟩).symm
  · by_cases hflag : i < 6
    · obtain ⟨k, rfl⟩ : ∃ k : Fin 2, i = 4 + k.val := ⟨⟨i - 4, by omega⟩, by simp only; omega⟩
      rw [getBit_sampledBanks_flag, getBit_sampledBanks_flag, selectsAny, selectsAny, h.any_eq]
    · rw [getBit_sampledBanks_unused p ids b i (by omega), getBit_sampledBanks_unused p ids' b i (by omega)]

theorem sampledBanks_direction_perm (p : Pins) (b : RegBank) {ids ids' : List (Fin 4)} (h : ids.Perm ids') :
    (sampledBanks p ids b).direction = (sampledBanks p ids' b).direction := by
  apply eq_of_getBit
  intro i _
  rw [getBit_sampledBanks_direction, getBit_sampledBanks_direction, h.any_eq]

theorem sampledBanks_perm (p : Pins) (b : RegBank) {ids ids' : List (Fin 4)} (h : ids.Perm ids') :
    sampledBanks p ids b = sampledBanks p ids' b := by
  rw [sampledBanks_frame p ids, sampledBanks_frame p ids', sampledBanks_status_perm p b h,
    sampledBanks_direction_perm p b h]

theorem sampledOuts_intLine_perm (p : Pins) (b : RegBank) (o : Latches) {ids ids' : List (Fin 4)} (h : ids.Perm ids') :
    (sampledOuts p ids b o).intLine = (sampledOuts p ids' b o).intLine := by
  apply eq_of_getBit
  intro i hi
  have hbit := getBit_sampledOuts_intLine p ids b o ⟨i, hi⟩
  rw [selectsAny, h.any_eq, ← selectsAny, ← getBit_sampledOuts_intLine] at hbit
  exact hbit

/-- Settles O25: the bank by `sampledBanks_perm`, the lines bit by bit, and the pins because they follow the direction byte
exactly when it changed. -/
theorem inputOrderDoesNotMatter : Obligations.InputOrderDoesNotMatter := by
  intro p s order hperm
  have hbank := sampledBanks_perm p s.bank (show order.Perm allInputs from hperm)
  have hpins := (foldl_sampleInput_cutoffsOnly p order s).dirPin_eq
  have hpins' := (sampleAll_cutoffsOnly p s).dirPin_eq
  rw [foldl_sampleInput_eq] at hpins ⊢
  rw [sampleAll_eq] at hpins' ⊢
  refine ⟨hbank, ?_⟩
  dsimp only at hpins hpins' ⊢
  rw [sampledOuts_frame p order, sampledOuts_frame p allInputs, hpins, hpins', hbank,
    sampledOuts_intLine_perm p s.bank s.out hperm]
  rfl

/-! ## A pin change, bit by bit -/

@[simp] theorem getBit_zero (n i : Nat) : getBit 0#n i = false := BitVec.getLsbD_zero

/-- The mask of the low half of a byte. -/
theorem getBit_0x0F (i : Nat) : getBit 0x0F#8 i = decide (i < 4) := by
  by_cases hi : i < 8
  · interval_cases i <;> rfl
  · rw [getBit_of_le _ i (by omega), decide_eq_false (by omega)]

/-- The mask of the high half of a byte. -/
theorem getBit_0xF0 (i : Nat) : getBit 0xF0#8 i = decide (4 ≤ i ∧ i < 8) := by
  by_cases hi : i < 8
  · interval_cases i <;> rfl
  · rw [getBit_of_le _ i (by omega), decide_eq_false (by omega)]

/-- A mask with the bit of an input has bits 3:0 not all 0. -/
theorem mask_low_ne_zero (m : Byte) (id : Fin 4) (h : getBit m id.val = true) : (m &&& 0x0F#8 != 0#8) = true := by
  rw [bne_iff_ne]
  intro hzero
  rw [← getBit_and_0x0F, hzero, getBit_zero] at h
  cases h

/-- Bits 3:0 of a mask are not all 0 exactly when it selects an input (R155). -/
theorem selectsAny_allInputs (b : RegBank) (k : Fin 2) :
    selectsAny b k allInputs = (intMaskOf b k &&& 0x0F#8 != 0#8) := by
  rw [Bool.eq_iff_iff, bne_iff_ne, selectsAny, List.any_eq_true]
  constructor
  · rintro ⟨id, -, hbit⟩
    exact bne_iff_ne.mp (mask_low_ne_zero _ id hbit)
  · intro hne
    by_contra hnone
    refine hne (eq_of_getBit _ _ fun i hi => ?_)
    rw [getBit_and, getBit_0x0F, getBit_zero]
    by_cases hlow : i < 4
    · have hbit : ¬ getBit (intMaskOf b k) i = true := fun hbit => hnone ⟨⟨i, hlow⟩, mem_allInputs _, hbit⟩
      rw [Bool.eq_false_iff.mpr hbit, Bool.false_and]
    · rw [decide_eq_false hlow, Bool.and_false]

section

variable (p : Pins) (s : State)

theorem getBit_sampleAll_level (id : Fin 4) :
    getBit (sampleAll p s).bank.status id.val = (getBit p id.val ^^ inverted s.bank id) := by
  rw [sampleAll_eq]
  exact (getBit_sampledBanks_level p allInputs s.bank id).trans (if_pos (mem_allInputs id))

theorem getBit_sampleAll_flag (k : Fin 2) : getBit (sampleAll p s).bank.status (4 + k.val) =
    (getBit s.bank.status (4 + k.val) || (intMaskOf s.bank k &&& 0x0F#8 != 0#8)) := by
  rw [sampleAll_eq, ← selectsAny_allInputs]
  exact getBit_sampledBanks_flag p allInputs s.bank k

theorem getBit_sampleAll_unused (j : Nat) (h : 6 ≤ j) :
    getBit (sampleAll p s).bank.status j = getBit s.bank.status j := by
  rw [sampleAll_eq]
  exact getBit_sampledBanks_unused p allInputs s.bank j h

theorem getBit_sampleAll_direction (id : Fin 4) : getBit (sampleAll p s).bank.direction id.val =
    (getBit s.bank.direction id.val && !((getBit p id.val ^^ inverted s.bank id) && limitEnabled s.bank id)) := by
  rw [sampleAll_eq]
  exact getBit_sampledBanks_direction_input p allInputs s.bank id (mem_allInputs id)

theorem getBit_sampleAll_direction_high (j : Nat) (h : 4 ≤ j) :
    getBit (sampleAll p s).bank.direction j = getBit s.bank.direction j := by
  rw [sampleAll_eq]
  exact getBit_sampledBanks_direction_high p allInputs s.bank j h

theorem getBit_sampleAll_dirPin (i : Fin 4) : getBit (sampleAll p s).out.dirPin i.val =
    if (sampleAll p s).bank.direction = s.bank.direction then getBit s.out.dirPin i.val
    else getBit (sampleAll p s).bank.direction i.val := by
  rw [(sampleAll_cutoffsOnly p s).dirPin_eq]
  split
  · rfl
  · rw [getBit_setWidth, decide_eq_true i.isLt, Bool.true_and]

theorem getBit_sampleAll_intLine (k : Fin 2) : getBit (sampleAll p s).out.intLine k.val =
    (getBit s.out.intLine k.val || (intMaskOf s.bank k &&& 0x0F#8 != 0#8)) := by
  rw [sampleAll_eq, ← selectsAny_allInputs]
  exact getBit_sampledOuts_intLine p allInputs s.bank s.out k

/-- The frame of a pin change: `status`, `direction`, the direction pins, the lines and the trace (R158). -/
theorem sampleAll_frame : sampleAll p s = { s with
    bank := { s.bank with status := (sampleAll p s).bank.status, direction := (sampleAll p s).bank.direction }
    out := { s.out with dirPin := (sampleAll p s).out.dirPin, intLine := (sampleAll p s).out.intLine }
    fx := s.fx ++ sampledFxs p allInputs s.bank } := by
  rw [sampleAll_eq]
  dsimp only
  rw [← sampledBanks_frame, ← sampledOuts_frame]

end

/-- Settles O24: the frame, and the facts about the written fields one by one. -/
theorem pinChangeClosedForm : Obligations.PinChangeClosedForm := by
  intro p s hrun
  refine ⟨(sampleAll p s).bank.status, (sampleAll p s).bank.direction, (sampleAll p s).out.dirPin,
    (sampleAll p s).out.intLine, sampledFxs p allInputs s.bank, ?_, getBit_sampleAll_level p s,
    getBit_sampleAll_flag p s, fun j h _ => getBit_sampleAll_unused p s j h, getBit_sampleAll_direction p s,
    fun j h _ => getBit_sampleAll_direction_high p s j h, getBit_sampleAll_dirPin p s, getBit_sampleAll_intLine p s,
    fun k => ⟨?_, setIntLine_false_notMem_sampledFxs p allInputs s.bank k⟩⟩
  · rw [exec_pinchg_running p s hrun, ← sampleAll_frame]
  · rw [setIntLine_true_mem_sampledFxs, selectsAny_allInputs, bne_iff_ne]

/-- Settles O28: what `sampleAll_frame` does not name is unchanged, and cutoffs set no direction bit. -/
theorem pinChangeRights : Obligations.PinChangeRights := by
  intro p s hrun
  refine ⟨sampleAll p s, exec_pinchg_running p s hrun, fun r hst hdir => ?_,
    fun j h _ => getBit_sampleAll_unused p s j h, fun j _ => (sampleAll_cutoffsOnly p s).clears j,
    fun j h _ => getBit_sampleAll_direction_high p s j h, ?_⟩
  · rw [sampleAll_frame]
    cases r <;> first | rfl | exact absurd rfl hst | exact absurd rfl hdir
  · rw [sampleAll_frame]
    exact ⟨rfl, rfl, rfl, rfl, rfl, rfl, rfl, rfl⟩

/-! ## Scenarios -/

/-- Settles O29: the mask bit raises flag and line 0 (O24's facts), and the write of `status` ands both with bit 4. -/
theorem raiseThenAcknowledge : Obligations.RaiseThenAcknowledge := by
  intro p v s hrun hmask hv
  have hsel : (intMaskOf s.bank 0 &&& 0x0F#8 != 0#8) = true := mask_low_ne_zero s.bank.intMask0 2 hmask
  have hflag := getBit_sampleAll_flag p s 0
  have hline := getBit_sampleAll_intLine p s 0
  rw [hsel, Bool.or_true] at hflag hline
  have hrun' : (sampleAll p s).phase = .running := by rw [sampleAll_frame]; exact hrun
  have hack := getBit_writeReg_status_flag v (sampleAll p s) 0
  have hrel := getBit_writeReg_status_line v (sampleAll p s) 0
  rw [show getBit v (4 + (0 : Fin 2).val) = false from hv, Bool.false_and] at hack hrel
  refine ⟨sampleAll p s, writeReg .status v (sampleAll p s), exec_pinchg_running p s hrun,
    getBit_sampleAll_level p s 2, hflag, hline, exec_writeInstr_running .status v _ hrun', hack, hrel, fun id => ?_⟩
  have hid := id.isLt
  rw [writeReg_bank, bankSet_status, handlerByte, getBit_committedStatus, if_neg (by omega)]

/-- Settles O30: the write sets bit and pin; the pin change clears the bit, so the direction changed and the pin follows. -/
theorem cutoffIsNotLatched : Obligations.CutoffIsNotLatched := by
  intro id p v s hrun hlimit hactive hv
  generalize ht : writeReg .direction v s = t
  have hbank : t.bank = { s.bank with direction := v &&& 0x0F#8 } := by rw [← ht, writeReg_bank]; rfl
  have hset : getBit t.bank.direction id.val = true := by rw [hbank]; exact (getBit_and_0x0F v id).trans hv
  have hpin : getBit t.out.dirPin id.val = true := by
    rw [getBit_pins_of_eq_setWidth t.out t.bank.direction (ht ▸ writeReg_direction_pins v s), hset]
  have hcleared : getBit (sampleAll p t).bank.direction id.val = false := by
    have hoptions : inverted t.bank id = inverted s.bank id ∧ limitEnabled t.bank id = limitEnabled s.bank id := by
      rw [hbank]
      exact ⟨rfl, rfl⟩
    rw [getBit_sampleAll_direction, hoptions.1, hoptions.2, hactive, hlimit, Bool.and_true, Bool.not_true,
      Bool.and_false]
  have hchanged : (sampleAll p t).bank.direction ≠ t.bank.direction := by
    intro heq
    rw [heq, hset] at hcleared
    cases hcleared
  refine ⟨t, sampleAll p t, ?_, hset, hpin, exec_pinchg_running p t ?_, hcleared, ?_, ?_⟩
  · rw [← ht]
    exact exec_writeInstr_running .direction v s hrun
  · rw [← ht, writeReg_phase, hrun]
  · rw [getBit_sampleAll_dirPin, if_neg hchanged, hcleared]
  · rw [sampleAll_frame, ← ht, writeReg_eq]
    exact ⟨rfl, rfl, rfl⟩

/-- Settles O31: each option bit's place by evaluation. -/
theorem inputOptionBits : Obligations.InputOptionBits := fun _ =>
  ⟨⟨rfl, rfl, rfl, rfl⟩, ⟨rfl, rfl, rfl, rfl⟩, ⟨rfl, rfl, rfl, rfl⟩⟩

end Sys2Proof.Machine
end

section
/-! PROOFS. The remaining bus writes and what the bus may do to the bank and the latches (spec 41_write_handlers.md R136 to
R145, 10_state.md R37 to R39). The two speed registers and the two option registers are treated as one family each, indexed
by channel and by motor. -/

namespace Sys2Proof.Machine

/-! ## The halves of a byte -/

theorem direction_low_iff (d : Byte) : d &&& 0xF0#8 = 0#8 ↔ ∀ j, 4 ≤ j → j < 8 → getBit d j = false := by
  constructor
  · intro h j hge hlt
    have hbit := congrArg (getBit · j) h
    simpa [getBit_0xF0, hge, hlt] using hbit
  · intro h
    apply eq_of_getBit
    intro j _
    rw [getBit_and, getBit_0xF0, getBit_zero]
    by_cases hj : 4 ≤ j ∧ j < 8
    · rw [h j hj.1 hj.2, Bool.false_and]
    · rw [decide_eq_false hj, Bool.and_false]

/-- The direction handler changes no byte whose upper half is 0 (R134). -/
theorem direction_low_iff_and_0x0F (d : Byte) : d &&& 0xF0#8 = 0#8 ↔ d &&& 0x0F#8 = d := by
  rw [direction_low_iff]
  constructor
  · intro h
    apply eq_of_getBit
    intro j hj
    rw [getBit_and, getBit_0x0F]
    by_cases hlow : j < 4
    · rw [decide_eq_true hlow, Bool.and_true]
    · rw [h j (by omega) hj, Bool.false_and]
  · intro h j hge _
    rw [← h, getBit_and, getBit_0x0F, decide_eq_false (by omega), Bool.and_false]

/-- What the direction handler commits has an upper half of 0 (R134). -/
theorem and_0x0F_low (v : Byte) : (v &&& 0x0F#8) &&& 0xF0#8 = 0#8 := by
  rw [direction_low_iff_and_0x0F, BitVec.and_assoc, BitVec.and_self]

/-! ## Other registers -/

/-- A write of a register keeps every other one (R52). -/
theorem bankGet_writeReg_ne (r q : Reg) (v : Byte) (s : State) (h : q ≠ r) :
    bankGet (writeReg r v s).bank q = bankGet s.bank q := by
  rw [writeReg_bank, bankGet_bankSet, if_neg h]

theorem bankGet_writeReg_same (r : Reg) (v : Byte) (s : State) :
    bankGet (writeReg r v s).bank r = handlerByte r v s.bank.status := by
  rw [writeReg_bank, bankGet_bankSet, if_pos rfl]

/-- Only the status handler drives the lines (R40). -/
theorem handlerOut_intLine_frame (r : Reg) (v : Byte) (o : Latches) (h : r ≠ .status) :
    (handlerOut r v o).intLine = o.intLine := by
  cases r <;> first | exact absurd rfl h | rfl | (simp only [handlerOut]; split <;> rfl)

/-! ## The speed registers -/

/-- The speed register of a channel (R33). -/
def speedReg : Fin 2 → Reg
  | 0 => .speed0
  | 1 => .speed1

theorem bankGet_speedReg (b : RegBank) (c : Fin 2) : bankGet b (speedReg c) = speedOf b c := by
  match c with
  | 0 => rfl
  | 1 => rfl

theorem speedReg_inj {c d : Fin 2} : speedReg c = speedReg d ↔ c = d := by
  revert c d
  decide

section

variable (c d : Fin 2) (v : Byte) (o : Latches) (s : State)

/-- A speed write enables its channel exactly when the speed is not 0, and leaves the other channel (R136, R137). -/
theorem getBit_handlerOut_speedReg_pwmEn : getBit (handlerOut (speedReg c) v o).pwmEn d.val =
    if d = c then v != 0#8 else getBit o.pwmEn d.val := by
  match c, d with
  | 0, 0 => by_cases h : v = 0#8 <;> simp [speedReg, handlerOut, h, getBit_setBit]
  | 0, 1 => by_cases h : v = 0#8 <;> simp [speedReg, handlerOut, h, getBit_setBit]
  | 1, 0 => by_cases h : v = 0#8 <;> simp [speedReg, handlerOut, h, getBit_setBit]
  | 1, 1 => by_cases h : v = 0#8 <;> simp [speedReg, handlerOut, h, getBit_setBit]

/-- A speed write sets its channel's duty unless the speed is 0 (R38). -/
theorem pwmDutyOf_handlerOut_speedReg : pwmDutyOf (handlerOut (speedReg c) v o) d =
    if d = c ∧ v ≠ 0#8 then v else pwmDutyOf o d := by
  match c, d with
  | 0, 0 => by_cases h : v = 0#8 <;> simp [speedReg, handlerOut, h]
  | 0, 1 => by_cases h : v = 0#8 <;> simp [speedReg, handlerOut, h]
  | 1, 0 => by_cases h : v = 0#8 <;> simp [speedReg, handlerOut, h]
  | 1, 1 => by_cases h : v = 0#8 <;> simp [speedReg, handlerOut, h]

theorem speedOf_writeReg_speedReg :
    speedOf (writeReg (speedReg c) v s).bank d = if d = c then v else speedOf s.bank d := by
  rw [← bankGet_speedReg, ← bankGet_speedReg, writeReg_bank, bankGet_bankSet]
  simp only [speedReg_inj]
  match c with
  | 0 => rfl
  | 1 => rfl

/-- A write of another register leaves the PWM channels and the speeds (R37, R38). -/
theorem writeReg_pwm_frame (r : Reg) (h : ∀ c, r ≠ speedReg c) :
    (writeReg r v s).out.pwmEn = s.out.pwmEn ∧ pwmDutyOf (writeReg r v s).out d = pwmDutyOf s.out d ∧
      speedOf (writeReg r v s).bank d = speedOf s.bank d := by
  refine ⟨?_, ?_, ?_⟩
  · rw [writeReg_out, handlerOut_pwmEn r v s.out (h 0) (h 1)]
  · rw [writeReg_out]
    match d with
    | 0 => exact handlerOut_pwmDuty0 r v s.out (h 0)
    | 1 => exact handlerOut_pwmDuty1 r v s.out (h 1)
  · rw [← bankGet_speedReg, ← bankGet_speedReg, bankGet_writeReg_ne r _ v s (h d).symm]

end

/-- The latches of a write of `speed[0]` (R136). -/
theorem handlerOut_speed0_eq (v : Byte) (o : Latches) : handlerOut .speed0 v o =
    { o with pwmEn := (handlerOut .speed0 v o).pwmEn, pwmDuty0 := if v = 0#8 then o.pwmDuty0 else v } := by
  by_cases h : v = 0#8 <;> simp [handlerOut, h]

/-- The latches of a write of `speed[1]` (R137). -/
theorem handlerOut_speed1_eq (v : Byte) (o : Latches) : handlerOut .speed1 v o =
    { o with pwmEn := (handlerOut .speed1 v o).pwmEn, pwmDuty1 := if v = 0#8 then o.pwmDuty1 else v } := by
  by_cases h : v = 0#8 <;> simp [handlerOut, h]

/-- Settles O13: the latches by `handlerOut_speed0_eq` and its twin, the enables bit by bit. -/
theorem wrSpeedResults : Obligations.WrSpeedResults := by
  intro v s hrun
  refine ⟨⟨_, handlerFx .speed0 v, ?_, getBit_handlerOut_speedReg_pwmEn 0 0 v s.out,
      getBit_handlerOut_speedReg_pwmEn 0 1 v s.out, .refl _⟩,
    ⟨_, handlerFx .speed1 v, ?_, getBit_handlerOut_speedReg_pwmEn 1 1 v s.out,
      getBit_handlerOut_speedReg_pwmEn 1 0 v s.out, .refl _⟩⟩
  · refine (exec_writeInstr_running .speed0 v s hrun).trans (congrArg _ ?_)
    rw [writeReg_eq, handlerOut_speed0_eq]
    rfl
  · refine (exec_writeInstr_running .speed1 v s hrun).trans (congrArg _ ?_)
    rw [writeReg_eq, handlerOut_speed1_eq]
    rfl

/-! ## The option registers -/

/-- The option register of a motor (R34). -/
def inoptsReg : Fin 2 → Reg
  | 0 => .inopts0
  | 1 => .inopts1

theorem bankGet_inoptsReg (b : RegBank) (m : Fin 2) : bankGet b (inoptsReg m) = inoptsOf b m := by
  match m with
  | 0 => rfl
  | 1 => rfl

theorem inoptsReg_inj {m n : Fin 2} : inoptsReg m = inoptsReg n ↔ m = n := by
  revert m n
  decide

section

variable (m n j : Fin 2) (v : Byte) (o : Latches) (s : State)

/-- An option write drives the two pull-ups of its motor and leaves the other motor's (R138, R139). -/
theorem getBit_handlerOut_inoptsReg_pullup : getBit (handlerOut (inoptsReg m) v o).pullup (inputOf n j).val =
    if n = m then getBit v (pullupBit j) else getBit o.pullup (inputOf n j).val := by
  match m, n, j with
  | 0, 0, 0 => simp [inoptsReg, handlerOut, inputOf, pullupBit, getBit_setBit]
  | 0, 0, 1 => simp [inoptsReg, handlerOut, inputOf, pullupBit, getBit_setBit]
  | 0, 1, 0 => simp [inoptsReg, handlerOut, inputOf, getBit_setBit]
  | 0, 1, 1 => simp [inoptsReg, handlerOut, inputOf, getBit_setBit]
  | 1, 0, 0 => simp [inoptsReg, handlerOut, inputOf, getBit_setBit]
  | 1, 0, 1 => simp [inoptsReg, handlerOut, inputOf, getBit_setBit]
  | 1, 1, 0 => simp [inoptsReg, handlerOut, inputOf, pullupBit, getBit_setBit]
  | 1, 1, 1 => simp [inoptsReg, handlerOut, inputOf, pullupBit, getBit_setBit]

theorem inoptsOf_writeReg_inoptsReg :
    inoptsOf (writeReg (inoptsReg m) v s).bank n = if n = m then v else inoptsOf s.bank n := by
  rw [← bankGet_inoptsReg, ← bankGet_inoptsReg, writeReg_bank, bankGet_bankSet]
  simp only [inoptsReg_inj]
  match m with
  | 0 => rfl
  | 1 => rfl

/-- A write of another register leaves the pull-ups and the options (R39). -/
theorem writeReg_pullup_frame (r : Reg) (h : ∀ m, r ≠ inoptsReg m) :
    (writeReg r v s).out.pullup = s.out.pullup ∧ inoptsOf (writeReg r v s).bank n = inoptsOf s.bank n := by
  refine ⟨?_, ?_⟩
  · rw [writeReg_out, handlerOut_pullup r v s.out (h 0) (h 1)]
  · rw [← bankGet_inoptsReg, ← bankGet_inoptsReg, bankGet_writeReg_ne r _ v s (h n).symm]

end

/-- Settles O14: the handler's latches and effects are the pull-ups alone, and each is read off bit by bit. -/
theorem wrInoptsResults : Obligations.WrInoptsResults := by
  intro v s hrun
  refine ⟨⟨_, handlerFx .inopts0 v, ?_, getBit_handlerOut_inoptsReg_pullup 0 0 0 v s.out,
      getBit_handlerOut_inoptsReg_pullup 0 0 1 v s.out, getBit_handlerOut_inoptsReg_pullup 0 1 0 v s.out,
      getBit_handlerOut_inoptsReg_pullup 0 1 1 v s.out, .refl _⟩,
    ⟨_, handlerFx .inopts1 v, ?_, getBit_handlerOut_inoptsReg_pullup 1 1 0 v s.out,
      getBit_handlerOut_inoptsReg_pullup 1 1 1 v s.out, getBit_handlerOut_inoptsReg_pullup 1 0 0 v s.out,
      getBit_handlerOut_inoptsReg_pullup 1 0 1 v s.out, .refl _⟩⟩
  · exact (exec_writeInstr_running .inopts0 v s hrun).trans (congrArg _ (writeReg_eq .inopts0 v s))
  · exact (exec_writeInstr_running .inopts1 v s hrun).trans (congrArg _ (writeReg_eq .inopts1 v s))

/-! ## Addresses without a register -/

/-- A running block takes a commit and sets `dirty` (R143). -/
theorem exec_wrCommit_running (v : Byte) (s : State) (h : s.phase = .running) :
    exec (.wrCommit v) s = .next { s with dirty := true } := by
  rw [exec_wrCommit, whenRunning_eq s _ h]

/-- A running block takes a no-op (R142). -/
theorem exec_wrNop_running (a : RegAddr) (v : Byte) (s : State) (h : s.phase = .running) :
    exec (.wrNop a v) s = .next s := by
  rw [exec_wrNop, whenRunning_eq s _ h]

/-- Settles O16: the address is no register's and not the commit address, so it decodes to the no-op. -/
theorem wrNopChangesNothing : Obligations.WrNopChangesNothing := by
  intro a v s hge hne hrun
  exact ⟨by rw [decode_packWrite, decodeWrite_nop a v hge hne], exec_wrNop_running a v s hrun⟩

/-- Settles O17: address 127 decodes to the commit, which sets the flag. -/
theorem wrCommitSetsDirty : Obligations.WrCommitSetsDirty := by
  intro v s hrun
  exact ⟨decode_packWrite Config.commitAddr v, exec_wrCommit_running v s hrun⟩

/-! ## A write repeated -/

/-- A handler commits the same byte the second time: for `status` the same bits are cleared again (R144). -/
theorem handlerByte_writeReg (r : Reg) (v : Byte) (s : State) :
    handlerByte r v (writeReg r v s).bank.status = handlerByte r v s.bank.status := by
  cases r
  case status =>
    apply eq_of_getBit
    intro i _
    simp only [writeReg_bank, bankSet_status, handlerByte, getBit_committedStatus]
    split <;> simp
  all_goals rfl

/-- The later of two writes of one register wins. -/
theorem bankSet_bankSet (b : RegBank) (r : Reg) (v w : Byte) : bankSet (bankSet b r v) r w = bankSet b r w := by
  cases r <;> rfl

theorem bankSet_bankGet_self (b : RegBank) (r : Reg) : bankSet b r (bankGet b r) = b := by
  cases r <;> rfl

/-- Channel `c` is driven with the speed `v`. -/
def ChannelDriven (c : Fin 2) (v : Byte) (o : Latches) : Prop :=
  getBit o.pwmEn c.val = (v != 0#8) ∧ (v ≠ 0#8 → pwmDutyOf o c = v)

/-- The pull-ups of motor `m` are driven from the options `v`. -/
def MotorDriven (m : Fin 2) (v : Byte) (o : Latches) : Prop :=
  ∀ j : Fin 2, getBit o.pullup (inputOf m j).val = getBit v (pullupBit j)

/-- The latches already show what the handler of `r` drives from the byte `v` (R132 to R141). -/
def Driven (r : Reg) (v : Byte) (o : Latches) : Prop :=
  match r with
  | .slaveAddr => o.busAddr = v
  | .status => ∀ k : Fin 2, getBit v (4 + k.val) = false → getBit o.intLine k.val = false
  | .direction => ∀ i : Fin 4, getBit o.dirPin i.val = getBit v i.val
  | .speed0 => ChannelDriven 0 v o
  | .speed1 => ChannelDriven 1 v o
  | .inopts0 => MotorDriven 0 v o
  | .inopts1 => MotorDriven 1 v o
  | .reserved | .intMask0 | .intMask1 => True

theorem channelDriven_handlerOut (c : Fin 2) (v : Byte) (o : Latches) :
    ChannelDriven c v (handlerOut (speedReg c) v o) := by
  refine ⟨?_, fun hv => ?_⟩
  · rw [getBit_handlerOut_speedReg_pwmEn, if_pos rfl]
  · rw [pwmDutyOf_handlerOut_speedReg, if_pos ⟨rfl, hv⟩]

theorem motorDriven_handlerOut (m : Fin 2) (v : Byte) (o : Latches) :
    MotorDriven m v (handlerOut (inoptsReg m) v o) := fun j => by
  rw [getBit_handlerOut_inoptsReg_pullup, if_pos rfl]

/-- After a write the latches show what it drove. -/
theorem driven_writeReg (r : Reg) (v : Byte) (s : State) : Driven r v (writeReg r v s).out := by
  rw [writeReg_out]
  cases r
  case slaveAddr => rfl
  case status =>
    intro k hv
    rw [getBit_handlerOut_status_intLine, hv, Bool.false_and]
  case direction =>
    intro i
    rw [getBit_pins_of_eq_setWidth _ (v &&& 0x0F#8) rfl, getBit_and_0x0F]
  case speed0 => exact channelDriven_handlerOut 0 v s.out
  case speed1 => exact channelDriven_handlerOut 1 v s.out
  case inopts0 => exact motorDriven_handlerOut 0 v s.out
  case inopts1 => exact motorDriven_handlerOut 1 v s.out
  case reserved => trivial
  case intMask0 => trivial
  case intMask1 => trivial

/-- Driving a channel as it is driven changes no enable. -/
theorem handlerOut_speedReg_pwmEn_of_driven (c : Fin 2) (v : Byte) (o : Latches) (h : ChannelDriven c v o) :
    (handlerOut (speedReg c) v o).pwmEn = o.pwmEn := by
  apply eq_of_getBit
  intro i hi
  refine (getBit_handlerOut_speedReg_pwmEn c ⟨i, hi⟩ v o).trans ?_
  split
  · next hc => rw [← h.1, ← hc]
  · rfl

/-- Driving the pull-ups of a motor as they are driven changes none. -/
theorem handlerOut_inoptsReg_pullup_of_driven (m : Fin 2) (v : Byte) (o : Latches) (h : MotorDriven m v o) :
    (handlerOut (inoptsReg m) v o).pullup = o.pullup := by
  apply eq_of_getBit
  intro i hi
  obtain ⟨n, j, rfl⟩ : ∃ n j, i = (inputOf n j).val := ⟨inputMotor ⟨i, hi⟩, inputIndex ⟨i, hi⟩, by
    simp only [inputOf, inputMotor, inputIndex]; omega⟩
  rw [getBit_handlerOut_inoptsReg_pullup]
  split
  · next hn => rw [hn, h j]
  · rfl

/-- A handler changes no latch that already shows what it drives. -/
theorem handlerOut_of_driven (r : Reg) (v : Byte) (s : State) (h : Driven r v s.out) :
    handlerOut r v s.out = s.out := by
  cases r
  case slaveAddr =>
    have hbus : s.out.busAddr = v := h
    rw [← hbus]
    rfl
  case status =>
    have hline : (handlerOut .status v s.out).intLine = s.out.intLine := by
      apply eq_of_getBit
      intro i hi
      refine (getBit_handlerOut_status_intLine v s ⟨i, hi⟩).trans ?_
      cases hv : getBit v (4 + i)
      case false => rw [Bool.false_and, ← h ⟨i, hi⟩ hv]
      case true => rw [Bool.true_and]
    exact congrArg (fun l => { s.out with intLine := l }) hline
  case direction =>
    have hpins : (v &&& 0x0F#8).setWidth 4 = s.out.dirPin := by
      apply eq_of_getBit
      intro i hi
      rw [getBit_setWidth, decide_eq_true hi, Bool.true_and]
      exact (getBit_and_0x0F v ⟨i, hi⟩).trans (h ⟨i, hi⟩).symm
    exact congrArg (fun p => { s.out with dirPin := p }) hpins
  case speed0 =>
    have hduty : (if v = 0#8 then s.out.pwmDuty0 else v) = s.out.pwmDuty0 := by
      split
      · rfl
      · next hv => exact (h.2 hv).symm
    rw [handlerOut_speed0_eq, hduty, show (handlerOut .speed0 v s.out).pwmEn = s.out.pwmEn from
      handlerOut_speedReg_pwmEn_of_driven 0 v s.out h]
  case speed1 =>
    have hduty : (if v = 0#8 then s.out.pwmDuty1 else v) = s.out.pwmDuty1 := by
      split
      · rfl
      · next hv => exact (h.2 hv).symm
    rw [handlerOut_speed1_eq, hduty, show (handlerOut .speed1 v s.out).pwmEn = s.out.pwmEn from
      handlerOut_speedReg_pwmEn_of_driven 1 v s.out h]
  case inopts0 =>
    exact congrArg (fun l => { s.out with pullup := l }) (handlerOut_inoptsReg_pullup_of_driven 0 v s.out h)
  case inopts1 =>
    exact congrArg (fun l => { s.out with pullup := l }) (handlerOut_inoptsReg_pullup_of_driven 1 v s.out h)
  case reserved => rfl
  case intMask0 => rfl
  case intMask1 => rfl

/-- A write repeated adds its effects to the trace and changes nothing else (R144). -/
theorem writeReg_writeReg (r : Reg) (v : Byte) (s : State) :
    writeReg r v (writeReg r v s) =
      { writeReg r v s with fx := (writeReg r v s).fx ++ handlerFx r v } := by
  have hbank : bankSet (writeReg r v s).bank r (handlerByte r v s.bank.status) = (writeReg r v s).bank := by
    rw [writeReg_bank, bankSet_bankSet]
  rw [writeReg_eq r v (writeReg r v s), handlerOut_of_driven r v _ (driven_writeReg r v s), handlerByte_writeReg, hbank]

/-- Settles O21: a register's write by `writeReg_writeReg`; the commit and the no-op emit nothing. -/
theorem repeatedWriteIsIdempotent : Obligations.RepeatedWriteIsIdempotent := by
  intro a v s hrun
  obtain ⟨r, rfl⟩ | rfl | ⟨hge, hne⟩ := regAddr_cases a
  · have hrun' : (writeReg r v s).phase = .running := (writeReg_phase r v s).trans hrun
    refine ⟨writeReg r v s, handlerFx r v, ?_, writeReg_fx r v s, ?_⟩
    · rw [decodeWrite_addr, exec_writeInstr_running r v s hrun]
    · rw [decodeWrite_addr, exec_writeInstr_running r v _ hrun', writeReg_writeReg]
  · refine ⟨{ s with dirty := true }, [], exec_wrCommit_running v s hrun, (List.append_nil _).symm, ?_⟩
    rw [List.append_nil]
    exact exec_wrCommit_running v { s with dirty := true } hrun
  · refine ⟨s, [], ?_, (List.append_nil _).symm, ?_⟩
    · rw [decodeWrite_nop a v hge hne, exec_wrNop_running a v s hrun]
    · rw [decodeWrite_nop a v hge hne, exec_wrNop_running a v s hrun, List.append_nil]

/-- In a consistent state the handler of a register commits the byte the register holds: nothing is
masked away (R48, R144). -/
theorem Consistent.handlerByte_eq {s : State} (h : Consistent s) (r : Reg) :
    handlerByte r (bankGet s.bank r) s.bank.status = bankGet s.bank r := by
  cases r
  case status => exact committedStatus_self s.bank.status
  case direction =>
    exact (direction_low_iff_and_0x0F s.bank.direction).mp h.direction_low
  case reserved => exact h.reserved_zero.symm
  all_goals rfl

/-- In a consistent state with matching lines, the latches show what every register drives (R29, R48). -/
theorem Consistent.driven {s : State} (h : Consistent s) (hlines : ∀ k, LineMatchesFlag k s) (r : Reg) :
    Driven r (bankGet s.bank r) s.out := by
  have hchannel : ∀ c, ChannelDriven c (speedOf s.bank c) s.out := fun c =>
    ⟨h.pwm_en c, fun hv => h.pwm_duty c (by rw [h.pwm_en c, bne_iff_ne]; exact hv)⟩
  cases r
  case slaveAddr => exact h.bus_addr
  case status => exact fun k hflag => (hlines k).trans hflag
  case direction => exact h.dir_pins
  case speed0 => exact hchannel 0
  case speed1 => exact hchannel 1
  case inopts0 => exact h.pullups 0
  case inopts1 => exact h.pullups 1
  all_goals trivial

/-- Settles O22: the committed byte is the one held, and every latch already shows it. -/
theorem rewritingTheCommittedByteKeepsState : Obligations.RewritingTheCommittedByteKeepsState := by
  intro r s hrun hcons hlines
  refine ⟨handlerFx r (bankGet s.bank r), (exec_writeInstr_running r _ s hrun).trans (congrArg _ ?_)⟩
  rw [writeReg_eq, hcons.handlerByte_eq, bankSet_bankGet_self, handlerOut_of_driven r _ s (hcons.driven hlines r)]

end Sys2Proof.Machine
end

section
/-! PROOFS. What an operation does to the bank and the latches, and the invariants (spec 10_state.md R29, R30, R37 to R39, R48).
Only a register write, a pin change and `RESTORE` touch them, so each claim below is a fact about those three. -/

namespace Sys2Proof.Machine

/-- Everything an operation can do to the bank and the latches. -/
theorem exec_bank_out (i : Instr) (s t : State) (h : exec i s = .next t) :
    (t.bank = s.bank ∧ t.out = s.out) ∨ (∃ r v, i = writeInstr r v ∧ t = writeReg r v s) ∨
      (∃ p, i = .pinchg p ∧ t = sampleAll p s) ∨ (i = .restore ∧ t = restoreAll s) := by
  obtain ⟨-, hrun⟩ | ⟨-, hi, ht⟩ := exec_next i s t h
  · obtain ⟨a, -, rfl⟩ | ⟨r, v, hi, ht⟩ | ⟨v, -, rfl⟩ | ⟨a, v, -, rfl⟩ | ⟨p, hi, ht⟩ | ⟨-, -, -, rfl⟩ |
      ⟨-, b, -, rfl⟩ := hrun
    · exact .inl ⟨rfl, rfl⟩
    · exact .inr (.inl ⟨r, v, hi, ht⟩)
    · exact .inl ⟨rfl, rfl⟩
    · exact .inl ⟨rfl, rfl⟩
    · exact .inr (.inr (.inl ⟨p, hi, ht⟩))
    · exact .inl ⟨rfl, rfl⟩
    · exact .inl ⟨rfl, rfl⟩
  · exact .inr (.inr (.inr ⟨hi, ht⟩))

/-! ## The status register -/

/-- No register write changes a status bit that is no flag (R133). -/
theorem getBit_writeReg_status_other (r : Reg) (v : Byte) (s : State) (j : Nat) (h4 : j ≠ 4) (h5 : j ≠ 5) :
    getBit (writeReg r v s).bank.status j = getBit s.bank.status j := by
  by_cases hr : r = .status
  · rw [hr, writeReg_bank, bankSet_status, handlerByte, getBit_committedStatus, if_neg (not_or.mpr ⟨h4, h5⟩)]
  · rw [writeReg_status_frame r v s hr]

/-- Settles O18: register writes bit by bit; the rest of the bus does not write `status`. -/
theorem statusIsReadOnlyOnTheBus : Obligations.StatusIsReadOnlyOnTheBus := by
  intro i s t hbus h
  refine ⟨fun j _ h4 h5 => ?_, fun j h45 => ?_, fun v j hi h45 hv => ?_⟩
  · obtain ⟨hbank, -⟩ | ⟨r, v, -, rfl⟩ | ⟨p, rfl, -⟩ | ⟨rfl, -⟩ := exec_bank_out i s t h
    · rw [hbank]
    · exact getBit_writeReg_status_other r v s j h4 h5
    · cases hbus
    · cases hbus
  · obtain rfl | rfl := h45
    · exact exec_busEngine_sets_no_flag i s t 0 hbus h
    · exact exec_busEngine_sets_no_flag i s t 1 hbus h
  · subst hi
    obtain ⟨-, rfl⟩ := exec_writeInstr_next .status v s t h
    rw [writeReg_bank, bankSet_status, handlerByte, getBit_committedStatus, if_pos h45, hv, Bool.false_and]

/-- Settles O46: neither a register write nor a pin change reaches bits 6 and 7. -/
theorem unusedStatusBitsAreConstant : Obligations.UnusedStatusBitsAreConstant := by
  intro i s t j h hres hj _
  obtain ⟨hbank, -⟩ | ⟨r, v, -, rfl⟩ | ⟨p, -, rfl⟩ | ⟨hi, -⟩ := exec_bank_out i s t h
  · rw [hbank]
  · exact getBit_writeReg_status_other r v s j (by omega) (by omega)
  · exact getBit_sampleAll_unused p s j hj
  · exact absurd hi hres

/-! ## The forced zeros -/

/-- A register write leaves `reserved` 0 or as it was (R135). -/
theorem writeReg_reserved (r : Reg) (v : Byte) (s : State) (h : s.bank.reserved = 0#8) :
    (writeReg r v s).bank.reserved = 0#8 := by
  by_cases hr : r = .reserved
  · subst hr
    exact bankGet_writeReg_same .reserved v s
  · exact (bankGet_writeReg_ne r .reserved v s (Ne.symm hr)).trans h

/-- A register write sets no bit of `direction[7:4]` (R134). -/
theorem getBit_writeReg_direction_high (r : Reg) (v : Byte) (s : State) (j : Nat) (hj : 4 ≤ j)
    (h : getBit (writeReg r v s).bank.direction j = true) : getBit s.bank.direction j = true := by
  by_cases hr : r = .direction
  · subst hr
    have hcommitted : (writeReg .direction v s).bank.direction = v &&& 0x0F#8 := bankGet_writeReg_same .direction v s
    rw [hcommitted, getBit_and, getBit_0x0F, decide_eq_false (by omega), Bool.and_false] at h
    cases h
  · rwa [show (writeReg r v s).bank.direction = s.bank.direction from
      bankGet_writeReg_ne r .direction v s (Ne.symm hr)] at h

/-- Settles O19: the register writes, as nothing else on the bus writes the bank. -/
theorem busKeepsForcedZeros : Obligations.BusKeepsForcedZeros := by
  intro i s t hbus h
  obtain ⟨hbank, -⟩ | ⟨r, v, -, rfl⟩ | ⟨p, rfl, -⟩ | ⟨rfl, -⟩ := exec_bank_out i s t h
  · rw [hbank]
    exact ⟨id, fun _ _ _ => id⟩
  · exact ⟨writeReg_reserved r v s, fun j hj _ => getBit_writeReg_direction_high r v s j hj⟩
  · cases hbus
  · cases hbus

/-! ## Lines and flags -/

/-- A register write keeps a line equal to its flag: a write of `status` ands both with the same bit (R29, R133). -/
theorem LineMatchesFlag.writeReg {k : Fin 2} {s : State} (h : LineMatchesFlag k s) (r : Reg) (v : Byte) :
    LineMatchesFlag k (writeReg r v s) := by
  unfold LineMatchesFlag at h ⊢
  by_cases hr : r = .status
  · subst hr
    rw [getBit_writeReg_status_line, h, intFlagBit, getBit_writeReg_status_flag]
  · rw [writeReg_status_frame r v s hr, writeReg_out, handlerOut_intLine_frame r v s.out hr, h]

/-- A pin change keeps a line equal to its flag: the mask raises both (R29, R155). -/
theorem LineMatchesFlag.sampleAll {k : Fin 2} {s : State} (h : LineMatchesFlag k s) (p : Pins) :
    LineMatchesFlag k (sampleAll p s) := by
  unfold LineMatchesFlag at h ⊢
  rw [getBit_sampleAll_intLine, h, intFlagBit, getBit_sampleAll_flag]

/-- Settles O27: by what a register write and a pin change each do to flag and line. -/
theorem callbacksKeepLineMatchingFlag : Obligations.CallbacksKeepLineMatchingFlag := by
  intro i s t k hcall h hmatch
  obtain ⟨hbank, hout⟩ | ⟨r, v, -, rfl⟩ | ⟨p, -, rfl⟩ | ⟨rfl, -⟩ := exec_bank_out i s t h
  · rwa [LineMatchesFlag, hbank, hout]
  · exact hmatch.writeReg r v
  · exact hmatch.sampleAll p
  · cases hcall

/-! ## RESTORE -/

/-- Settles O35: the equation of `RESTORE`, and what the replay drives latch by latch. -/
theorem restoreTable : Obligations.RestoreTable := by
  intro s hs
  have ht := exec_restore s hs
  rw [restoreAll_eq] at ht
  exact ⟨_, loadedBank s.nv, ht, rfl, rfl, replayOut_dirPin _ _, replayOut_pwmEn _ _, replayOut_pwmDuty _ _,
    replayOut_pullup _ _, replayOut_intLine _ _, replayOut_busAddr _ _, rfl, rfl, rfl, rfl, rfl, rfl, rfl, _, rfl⟩

/-- `RESTORE` establishes the invariants of R48, whatever was loaded. -/
theorem restoreAll_consistent (s : State) : Consistent (restoreAll s) where
  reserved_zero := by rw [restoreAll_eq]; rfl
  direction_low := by rw [restoreAll_eq]; exact and_0x0F_low _
  dir_pins := getBit_restoreAll_dirPin s
  pwm_en := by rw [restoreAll_eq]; exact replayOut_pwmEn _ _
  pwm_duty c hen := by
    rw [restoreAll_eq] at hen ⊢
    rw [replayOut_pwmEn, bne_iff_ne] at hen
    rw [replayOut_pwmDuty, if_neg hen]
    rfl
  pullups := by rw [restoreAll_eq]; exact replayOut_pullup _ _
  bus_addr := by rw [restoreAll_eq]; exact replayOut_busAddr _ _

/-- With no flush in progress nothing is asked of the snapshot. -/
theorem flushConsistent_of_none (s : State) (h : s.flushBuf = none) : FlushConsistent s := by
  intro b hb
  rw [h] at hb
  cases hb

theorem restoreAll_flushBuf (s : State) : (restoreAll s).flushBuf = none := by rw [restoreAll_eq]

/-- Settles O48: `restoreAll_consistent`, and the replay of a clear flag releases its line. -/
theorem restoreEstablishesTheInvariants : Obligations.RestoreEstablishesTheInvariants := by
  intro s hs
  refine ⟨restoreAll s, exec_restore s hs, restoreAll_consistent s,
    flushConsistent_of_none _ (restoreAll_flushBuf s), fun k hflag => ?_⟩
  rw [LineMatchesFlag, hflag]
  rw [restoreAll_eq] at hflag ⊢
  rw [replayOut_intLine, show getBit (loadedBank s.nv).status (intFlagBit k) = false from hflag, Bool.false_and]

/-! ## Who drives the PWM channels and the pull-ups -/

/-- After a speed write its channel is enabled exactly when the speed is not 0, and the other is as before (R37). -/
theorem writeReg_speedReg_pwmEn (c : Fin 2) (v : Byte) (s : State) :
    getBit (writeReg (speedReg c) v s).out.pwmEn c.val = (speedOf (writeReg (speedReg c) v s).bank c != 0#8) ∧
      ∀ d, d ≠ c → getBit (writeReg (speedReg c) v s).out.pwmEn d.val = getBit s.out.pwmEn d.val := by
  refine ⟨?_, fun d hd => ?_⟩
  · rw [writeReg_out, getBit_handlerOut_speedReg_pwmEn, speedOf_writeReg_speedReg, if_pos rfl, if_pos rfl]
  · rw [writeReg_out, getBit_handlerOut_speedReg_pwmEn, if_neg hd]

/-- Settles O33: the speed writes and `RESTORE` by what they drive, the rest by their frames. -/
theorem pwmEnableWriters : Obligations.PwmEnableWriters := by
  refine ⟨fun v s t h => ?_, fun v s t h => ?_, fun s t h => ?_, fun i s t h h0 h1 hres => ?_⟩
  · obtain ⟨-, rfl⟩ := exec_writeInstr_next .speed0 v s t h
    obtain ⟨hown, hother⟩ := writeReg_speedReg_pwmEn 0 v s
    exact ⟨hown, hother 1 (by decide)⟩
  · obtain ⟨-, rfl⟩ := exec_writeInstr_next .speed1 v s t h
    obtain ⟨hown, hother⟩ := writeReg_speedReg_pwmEn 1 v s
    exact ⟨hown, hother 0 (by decide)⟩
  · obtain ⟨-, rfl⟩ := execRestore_next s t h
    exact (restoreAll_consistent s).pwm_en
  · obtain ⟨-, hout⟩ | ⟨r, v, rfl, rfl⟩ | ⟨p, -, rfl⟩ | ⟨hi, -⟩ := exec_bank_out i s t h
    · rw [hout]
    · rw [writeReg_out]
      exact handlerOut_pwmEn r v s.out (fun hr => h0 v (by rw [hr]; rfl)) (fun hr => h1 v (by rw [hr]; rfl))
    · rw [sampleAll_frame]
    · exact absurd hi hres

/-- After an option write the pull-ups of its motor are its pull-up bits, and the other motor's are as before (R39). -/
theorem writeReg_inoptsReg_pullup (m j : Fin 2) (v : Byte) (s : State) :
    getBit (writeReg (inoptsReg m) v s).out.pullup (inputOf m j).val =
        getBit (inoptsOf (writeReg (inoptsReg m) v s).bank m) (pullupBit j) ∧
      ∀ n, n ≠ m → getBit (writeReg (inoptsReg m) v s).out.pullup (inputOf n j).val =
        getBit s.out.pullup (inputOf n j).val := by
  refine ⟨?_, fun n hn => ?_⟩
  · rw [writeReg_out, getBit_handlerOut_inoptsReg_pullup, inoptsOf_writeReg_inoptsReg, if_pos rfl, if_pos rfl]
  · rw [writeReg_out, getBit_handlerOut_inoptsReg_pullup, if_neg hn]

/-- Settles O34: the option writes and `RESTORE` by what they drive, the rest by their frames. -/
theorem pullupWriters : Obligations.PullupWriters := by
  refine ⟨fun v s t j h => ?_, fun v s t j h => ?_, fun s t h => ?_, fun i s t h h0 h1 hres => ?_⟩
  · obtain ⟨-, rfl⟩ := exec_writeInstr_next .inopts0 v s t h
    obtain ⟨hown, hother⟩ := writeReg_inoptsReg_pullup 0 j v s
    exact ⟨hown, hother 1 (by decide)⟩
  · obtain ⟨-, rfl⟩ := exec_writeInstr_next .inopts1 v s t h
    obtain ⟨hown, hother⟩ := writeReg_inoptsReg_pullup 1 j v s
    exact ⟨hown, hother 0 (by decide)⟩
  · obtain ⟨-, rfl⟩ := execRestore_next s t h
    exact (restoreAll_consistent s).pullups
  · obtain ⟨-, hout⟩ | ⟨r, v, rfl, rfl⟩ | ⟨p, -, rfl⟩ | ⟨hi, -⟩ := exec_bank_out i s t h
    · rw [hout]
    · rw [writeReg_out]
      exact handlerOut_pullup r v s.out (fun hr => h0 v (by rw [hr]; rfl)) (fun hr => h1 v (by rw [hr]; rfl))
    · rw [sampleAll_frame]
    · exact absurd hi hres

/-! ## The invariant of the block -/

/-- The invariants of R48 speak of the bank and the latches alone. -/
theorem Consistent.of_bank_out {s t : State} (h : Consistent s) (hbank : t.bank = s.bank) (hout : t.out = s.out) :
    Consistent t where
  reserved_zero := hbank ▸ h.reserved_zero
  direction_low := hbank ▸ h.direction_low
  dir_pins := hbank ▸ hout ▸ h.dir_pins
  pwm_en := hbank ▸ hout ▸ h.pwm_en
  pwm_duty := hbank ▸ hout ▸ h.pwm_duty
  pullups := hbank ▸ hout ▸ h.pullups
  bus_addr := hbank ▸ hout ▸ h.bus_addr

/-- Every register write keeps the invariants: a handler drives its own latches from the byte it commits, and leaves the
latches of the other registers (R48, R131). -/
theorem Consistent.writeReg {s : State} (h : Consistent s) (r : Reg) (v : Byte) : Consistent (writeReg r v s) where
  reserved_zero := writeReg_reserved r v s h.reserved_zero
  direction_low := by
    rw [direction_low_iff]
    intro j hge hlt
    refine Bool.eq_false_iff.mpr fun hbit => ?_
    have hold := getBit_writeReg_direction_high r v s j hge hbit
    rw [(direction_low_iff _).mp h.direction_low j hge hlt] at hold
    cases hold
  dir_pins i := by
    by_cases hr : r = .direction
    · subst hr
      exact getBit_pins_of_eq_setWidth _ _ (writeReg_direction_pins v s) i
    · rw [writeReg_out, handlerOut_dirPin r v s.out hr, h.dir_pins i]
      exact congrArg (getBit · i.val) (bankGet_writeReg_ne r .direction v s (Ne.symm hr)).symm
  pwm_en d := by
    by_cases hr : ∃ c, r = speedReg c
    · obtain ⟨c, rfl⟩ := hr
      rw [writeReg_out, getBit_handlerOut_speedReg_pwmEn, speedOf_writeReg_speedReg, h.pwm_en d]
      split <;> rfl
    · obtain ⟨hen, -, hspeed⟩ := writeReg_pwm_frame d v s r (not_exists.mp hr)
      rw [hen, hspeed, h.pwm_en d]
  pwm_duty d hen := by
    by_cases hr : ∃ c, r = speedReg c
    · obtain ⟨c, rfl⟩ := hr
      rw [writeReg_out, getBit_handlerOut_speedReg_pwmEn] at hen
      rw [writeReg_out, pwmDutyOf_handlerOut_speedReg, speedOf_writeReg_speedReg]
      by_cases hd : d = c
      · rw [if_pos hd, bne_iff_ne] at hen
        rw [if_pos ⟨hd, hen⟩, if_pos hd]
      · rw [if_neg hd] at hen
        rw [if_neg (fun hand => hd hand.1), if_neg hd, h.pwm_duty d hen]
    · obtain ⟨hkeep, hduty, hspeed⟩ := writeReg_pwm_frame d v s r (not_exists.mp hr)
      rw [hduty, hspeed, h.pwm_duty d (hkeep ▸ hen)]
  pullups n j := by
    by_cases hr : ∃ m, r = inoptsReg m
    · obtain ⟨m, rfl⟩ := hr
      rw [writeReg_out, getBit_handlerOut_inoptsReg_pullup, inoptsOf_writeReg_inoptsReg, h.pullups n j]
      split <;> rfl
    · obtain ⟨hpull, hopts⟩ := writeReg_pullup_frame n v s r (not_exists.mp hr)
      rw [hpull, hopts, h.pullups n j]
  bus_addr := by
    by_cases hr : r = .slaveAddr
    · subst hr
      rw [writeReg_out]
      exact (bankGet_writeReg_same .slaveAddr v s).symm
    · rw [writeReg_out, handlerOut_busAddr r v s.out hr, h.bus_addr]
      exact (bankGet_writeReg_ne r .slaveAddr v s (Ne.symm hr)).symm

/-- A pin change keeps the invariants: it writes `direction` and its pins together, and nothing else that R48 names. -/
theorem Consistent.sampleAll {s : State} (h : Consistent s) (p : Pins) : Consistent (sampleAll p s) where
  reserved_zero := by rw [sampleAll_frame]; exact h.reserved_zero
  direction_low := by
    rw [direction_low_iff]
    intro j hge hlt
    rw [getBit_sampleAll_direction_high p s j hge, (direction_low_iff _).mp h.direction_low j hge hlt]
  dir_pins i := by
    rw [getBit_sampleAll_dirPin]
    split
    · next hdir => rw [h.dir_pins i, hdir]
    · rfl
  pwm_en := by rw [sampleAll_frame]; exact h.pwm_en
  pwm_duty := by rw [sampleAll_frame]; exact h.pwm_duty
  pullups := by rw [sampleAll_frame]; exact h.pullups
  bus_addr := by rw [sampleAll_frame]; exact h.bus_addr

/-- Every operation keeps the invariants of R48. -/
theorem Consistent.exec {i : Instr} {s t : State} (hs : Consistent s) (h : exec i s = .next t) : Consistent t := by
  obtain ⟨hbank, hout⟩ | ⟨r, v, -, rfl⟩ | ⟨p, -, rfl⟩ | ⟨-, rfl⟩ := exec_bank_out i s t h
  · exact hs.of_bank_out hbank hout
  · exact hs.writeReg r v
  · exact hs.sampleAll p
  · exact restoreAll_consistent s

/-- What is asked of a flush in progress is kept by what keeps the snapshot and does not clear `dirty`. -/
theorem FlushConsistent.of_flushBuf {s t : State} (h : FlushConsistent s) (hbuf : t.flushBuf = s.flushBuf)
    (hdirty : s.dirty = true → t.dirty = true) : FlushConsistent t := by
  intro b hb
  obtain ⟨hd, hres, hdir⟩ := h b (hbuf ▸ hb)
  exact ⟨hdirty hd, hres, hdir⟩

/-- Every operation from a consistent state keeps what is asked of a flush in progress: the snapshot is taken of a
consistent bank, and `dirty` is cleared only when the snapshot goes (R171, R172). -/
theorem FlushConsistent.exec {i : Instr} {s t : State} (hf : FlushConsistent s) (hs : Consistent s)
    (h : exec i s = .next t) : FlushConsistent t := by
  obtain ⟨-, hrun⟩ | ⟨-, -, rfl⟩ := exec_next i s t h
  · obtain ⟨a, -, rfl⟩ | ⟨r, v, -, rfl⟩ | ⟨v, -, rfl⟩ | ⟨a, v, -, rfl⟩ | ⟨p, -, rfl⟩ | ⟨-, hd, -, rfl⟩ |
      ⟨-, b, -, rfl⟩ := hrun
    · exact hf.of_flushBuf rfl id
    · exact hf.of_flushBuf (writeReg_flushBuf r v s) (writeReg_dirty r v s ▸ id)
    · exact hf.of_flushBuf rfl fun _ => rfl
    · exact hf
    · rw [sampleAll_frame]
      exact hf.of_flushBuf rfl id
    · intro b hb
      obtain rfl : s.bank = b := Option.some.inj hb
      exact ⟨hd, hs.reserved_zero, hs.direction_low⟩
    · exact flushConsistent_of_none _ rfl
  · exact flushConsistent_of_none _ (restoreAll_flushBuf s)

/-- Every operation keeps the invariant: `RESTORE` establishes it, and the others run after it. -/
theorem BlockInv.exec {i : Instr} {s t : State} (hs : BlockInv s) (h : exec i s = .next t) : BlockInv t := by
  intro _
  obtain ⟨hrun, -⟩ | ⟨-, -, rfl⟩ := exec_next i s t h
  · obtain ⟨hcons, hflush⟩ := hs hrun
    exact ⟨hcons.exec h, hflush.exec hcons h⟩
  · exact ⟨restoreAll_consistent s, flushConsistent_of_none _ (restoreAll_flushBuf s)⟩

/-- The list of pending inputs is no part of the invariant. -/
theorem BlockInv.with_pending {s : State} (hs : BlockInv s) (rest : List Stimulus) :
    BlockInv { s with pending := rest } := fun hrun =>
  ⟨(hs hrun).1.of_bank_out rfl rfl, (hs hrun).2.of_flushBuf rfl id⟩

/-- Settles O47: a step runs an operation, or is a power cycle, after which nothing is promised, or does nothing. -/
theorem invariantKeptByEveryStep : Obligations.InvariantKeptByEveryStep := by
  intro s t hs h
  obtain ⟨w, rest, i, -, -, hexec⟩ | ⟨rest, -, rfl⟩ | ⟨i, -, -, hexec⟩ | ⟨-, -, rfl⟩ := step_next s t h
  · exact (hs.with_pending rest).exec hexec
  · exact fun hrun => nomatch hrun
  · exact hs.exec hexec
  · exact hs

/-- Settles O49: ten zero bytes and zero latches, by evaluation. -/
theorem resetHasTheInvariant : Obligations.ResetHasTheInvariant := by
  have hcons : Consistent State.reset :=
    ⟨rfl, rfl, by decide, by decide, by decide, by decide, rfl⟩
  refine ⟨fun _ => ⟨hcons, flushConsistent_of_none _ rfl⟩, fun k => ?_, rfl, rfl, rfl, rfl⟩
  revert k
  unfold LineMatchesFlag
  decide

end Sys2Proof.Machine
end

section
/-! PROOFS. Admission, callbacks, the flush and the power cycle (spec 43_persistence.md R165 to R176, 60_exceptions.md R180 to
R196, 70_reset_and_hazards.md R210 to R214). The key fact is the shape of a callback's effect: functions of the bank, the
latches and their own field, none of which sees `dirty` outside itself, the snapshot, the storage or the trace. -/

namespace Sys2Proof.Machine

/-! ## The effect of a callback -/

/-- The effect of a callback: what each field becomes, and of what (R131, R157). The fields that are not named are neither
read nor written. -/
structure CallbackEffect where
  /-- The bank, from the bank. -/
  bank : RegBank → RegBank
  /-- The latches, from the bank and the latches. -/
  out : RegBank → Latches → Latches
  /-- `dirty`, from itself. -/
  dirty : Bool → Bool
  /-- The read port, from the bank and itself. -/
  rdata : RegBank → Byte → Byte
  /-- The emitted effects, from the bank. -/
  fx : RegBank → List Effect

/-- The state after a callback's effect. -/
def CallbackEffect.run (e : CallbackEffect) (s : State) : State :=
  { s with
    bank := e.bank s.bank
    out := e.out s.bank s.out
    dirty := e.dirty s.dirty
    rdata := e.rdata s.bank s.rdata
    fx := s.fx ++ e.fx s.bank }

/-- The effect that changes nothing. -/
def CallbackEffect.nop : CallbackEffect where
  bank b := b
  out _ o := o
  dirty d := d
  rdata _ x := x
  fx _ := []

theorem busRead_eq (a : RegAddr) (s : State) : busRead a s = (Reg.ofAddr a).elim 0 (bankGet s.bank) := by
  unfold busRead
  cases Reg.ofAddr a <;> rfl

/-- The callbacks are the bus operations and the pin change (R183). -/
theorem callback_cases (i : Instr) (h : isCallback i = true) :
    (∃ a, i = .rd a) ∨ (∃ r v, i = writeInstr r v) ∨ (∃ v, i = .wrCommit v) ∨ (∃ a v, i = .wrNop a v) ∨
      ∃ p, i = .pinchg p := by
  cases i
  case rd a => exact .inl ⟨a, rfl⟩
  case wrSlaveAddr v => exact .inr (.inl ⟨.slaveAddr, v, rfl⟩)
  case wrStatus v => exact .inr (.inl ⟨.status, v, rfl⟩)
  case wrDirection v => exact .inr (.inl ⟨.direction, v, rfl⟩)
  case wrReserved v => exact .inr (.inl ⟨.reserved, v, rfl⟩)
  case wrSpeed0 v => exact .inr (.inl ⟨.speed0, v, rfl⟩)
  case wrSpeed1 v => exact .inr (.inl ⟨.speed1, v, rfl⟩)
  case wrInopts0 v => exact .inr (.inl ⟨.inopts0, v, rfl⟩)
  case wrInopts1 v => exact .inr (.inl ⟨.inopts1, v, rfl⟩)
  case wrIntmask0 v => exact .inr (.inl ⟨.intMask0, v, rfl⟩)
  case wrIntmask1 v => exact .inr (.inl ⟨.intMask1, v, rfl⟩)
  case wrCommit v => exact .inr (.inr (.inl ⟨v, rfl⟩))
  case wrNop a v => exact .inr (.inr (.inr (.inl ⟨a, v, rfl⟩)))
  case pinchg p => exact .inr (.inr (.inr (.inr ⟨p, rfl⟩)))
  case flushBegin => cases h
  case flushEnd => cases h
  case restore => cases h

/-- A callback is taken whenever the block runs, and has an effect of that shape. -/
theorem exec_callback (i : Instr) (h : isCallback i = true) :
    ∃ e : CallbackEffect, ∀ s, exec i s = whenRunning s e.run := by
  obtain ⟨a, rfl⟩ | ⟨r, v, rfl⟩ | ⟨v, rfl⟩ | ⟨a, v, rfl⟩ | ⟨p, rfl⟩ := callback_cases i h
  · refine ⟨{ CallbackEffect.nop with rdata := fun b _ => (Reg.ofAddr a).elim 0 (bankGet b) }, fun s => ?_⟩
    rw [exec_rd]
    congr 1
    funext s
    rw [busRead_eq]
    simp [CallbackEffect.run, CallbackEffect.nop]
  · refine ⟨{ CallbackEffect.nop with
      bank := fun b => bankSet b r (handlerByte r v b.status)
      out := fun _ => handlerOut r v
      fx := fun _ => handlerFx r v }, fun s => ?_⟩
    rw [exec_writeInstr]
    congr 1
    funext s
    exact writeReg_eq r v s
  · refine ⟨{ CallbackEffect.nop with dirty := fun _ => true }, fun s => ?_⟩
    rw [exec_wrCommit]
    congr 1
    funext s
    simp [CallbackEffect.run, CallbackEffect.nop]
  · refine ⟨CallbackEffect.nop, fun s => ?_⟩
    rw [exec_wrNop]
    congr 1
    funext s
    simp [CallbackEffect.run, CallbackEffect.nop]
  · refine ⟨{ CallbackEffect.nop with
      bank := sampledBanks p allInputs
      out := sampledOuts p allInputs
      fx := sampledFxs p allInputs }, fun s => ?_⟩
    rw [exec_pinchg]
    congr 1
    funext s
    exact sampleAll_eq p s

theorem exec_callback_running (i : Instr) (hi : isCallback i = true) :
    ∃ e : CallbackEffect, ∀ u : State, u.phase = .running → exec i u = .next (e.run u) := by
  obtain ⟨e, he⟩ := exec_callback i hi
  exact ⟨e, fun u hu => by rw [he, whenRunning_eq u e.run hu]⟩

/-- A callback that answered a next state: the block ran, and the effect is the callback's, in every running state. -/
theorem exec_callback_next (i : Instr) (hi : isCallback i = true) (s t : State) (h : exec i s = .next t) :
    ∃ e : CallbackEffect, s.phase = .running ∧ t = e.run s ∧
      ∀ u : State, u.phase = .running → exec i u = .next (e.run u) := by
  obtain ⟨e, he⟩ := exec_callback i hi
  obtain ⟨hrun, ht⟩ := whenRunning_next s t e.run (he s ▸ h)
  exact ⟨e, hrun, ht, fun u hu => by rw [he, whenRunning_eq u e.run hu]⟩

/-- Settles O23: the effect's fields do not mention the snapshot and the storage, and `dirty` only for itself. -/
theorem hiddenStateIsInvisibleToCallbacks : Obligations.HiddenStateIsInvisibleToCallbacks := by
  intro i s t d f n hcall h
  obtain ⟨e, hrun, rfl, hexec⟩ := exec_callback_next i hcall s t h
  exact ⟨rfl, rfl, e.dirty d, hexec { s with dirty := d, flushBuf := f, nv := n } hrun⟩

/-- An operation is a callback, a flush step or `RESTORE` (R183, R196). -/
theorem instr_cases (i : Instr) : isCallback i = true ∨ i = .flushBegin ∨ i = .flushEnd ∨ i = .restore := by
  cases i
  case flushBegin => exact .inr (.inl rfl)
  case flushEnd => exact .inr (.inr (.inl rfl))
  case restore => exact .inr (.inr (.inr rfl))
  all_goals exact .inl rfl

/-! ## The flush steps -/

/-- `FLUSH_BEGIN` when it is enabled (R171). -/
theorem exec_flushBegin_enabled (s : State) (hrun : s.phase = .running) (hd : s.dirty = true) (hf : s.flushBuf = none) :
    exec .flushBegin s = .next { s with flushBuf := some s.bank } := by
  simp [exec, execFlushBegin, hrun, hd, hf]

/-- `FLUSH_END` when a flush is in progress (R172). -/
theorem exec_flushEnd_enabled (s : State) (b : RegBank) (hrun : s.phase = .running) (hf : s.flushBuf = some b) :
    exec .flushEnd s = .next { s with nv := b, flushBuf := none, dirty := false, fx := s.fx ++ [.nvStore b] } := by
  simp [exec, execFlushEnd, hrun, hf, nvStore, emit]

/-- Settles O36: the guard of the step, both ways. -/
theorem flushBeginSnapshots : Obligations.FlushBeginSnapshots := by
  intro s hrun
  refine ⟨exec_flushBegin_enabled s hrun, fun hoff => ?_⟩
  have hdisabled : (s.dirty && s.flushBuf.isNone) = false := by
    obtain hd | hf := hoff
    · rw [hd, Bool.false_and]
    · rw [Option.isNone_eq_false_iff.mpr (Option.isSome_iff_ne_none.mpr hf), Bool.and_false]
  simp [exec, execFlushBegin, hrun, hdisabled]

/-- Settles O37: by whether there is a snapshot. -/
theorem flushEndStores : Obligations.FlushEndStores := by
  intro s hrun
  refine ⟨fun b hb => exec_flushEnd_enabled s b hrun hb, fun hnone => ?_⟩
  simp [exec, execFlushEnd, hrun, hnone]

/-! ## Admission -/

theorem admitted_callback (i : Instr) (s : State) (h : isCallback i = true) : Admitted i s ↔ s.phase = .running := by
  rw [isCallback, Bool.or_eq_true, decide_eq_true_eq, decide_eq_true_eq] at h
  unfold Admitted
  obtain hbus | hpin := h
  · rw [hbus]
  · rw [hpin]

theorem admitted_flushBegin (s : State) :
    Admitted .flushBegin s ↔ s.phase = .running ∧ s.dirty = true ∧ s.flushBuf = none := by
  simp [Admitted, presenter]

theorem admitted_flushEnd (s : State) : Admitted .flushEnd s ↔ s.phase = .running ∧ s.flushBuf ≠ none := by
  simp [Admitted, presenter]

theorem admitted_restore (s : State) : Admitted .restore s ↔ s.phase = .startup := by
  simp [Admitted, presenter]

/-- Settles O43: each kind of operation by its inversion lemma one way and its equation the other; there is no fault. -/
theorem operationsCompleteExactlyWhenAdmitted : Obligations.OperationsCompleteExactlyWhenAdmitted := by
  refine fun i s => ⟨?_, fun f => nomatch f⟩
  obtain hcall | rfl | rfl | rfl := instr_cases i
  · obtain ⟨e, he⟩ := exec_callback i hcall
    rw [admitted_callback i s hcall, he]
    exact ⟨fun ⟨t, ht⟩ => (whenRunning_next s t e.run ht).1, fun hrun => ⟨_, whenRunning_eq s e.run hrun⟩⟩
  · rw [admitted_flushBegin]
    constructor
    · rintro ⟨t, ht⟩
      obtain ⟨hrun, hd, hf, -⟩ := execFlushBegin_next s t ht
      exact ⟨hrun, hd, hf⟩
    · rintro ⟨hrun, hd, hf⟩
      exact ⟨_, exec_flushBegin_enabled s hrun hd hf⟩
  · rw [admitted_flushEnd]
    constructor
    · rintro ⟨t, ht⟩
      obtain ⟨hrun, b, hb, -⟩ := execFlushEnd_next s t ht
      exact ⟨hrun, hb ▸ Option.some_ne_none b⟩
    · rintro ⟨hrun, hf⟩
      obtain ⟨b, hb⟩ := Option.ne_none_iff_exists'.mp hf
      exact ⟨_, exec_flushEnd_enabled s b hrun hb⟩
  · rw [admitted_restore]
    exact ⟨fun ⟨t, ht⟩ => (execRestore_next s t ht).1, fun hs => ⟨_, exec_restore s hs⟩⟩

/-! ## Lists of operations -/

theorem runOps_cons (i : Instr) (is : List Instr) (s t : State) (h : exec i s = .next t) :
    runOps (i :: is) s = runOps is t := by
  rw [runOps, h]

/-- Running one list and then another. -/
theorem runOps_append (is js : List Instr) (s t : State) (h : runOps is s = .next t) :
    runOps (is ++ js) s = runOps js t := by
  induction is generalizing s with
  | nil =>
    obtain rfl : s = t := by simpa [runOps] using h
    rfl
  | cons i is ih =>
    rw [runOps] at h
    split at h
    · next u hu => rw [List.cons_append, runOps_cons i _ s u hu, ih u h]
    · cases h
    · cases h

/-- A list of callbacks completes from a running block and leaves it running, and with any other `dirty`, snapshot and
storage it does the same to every other field. -/
theorem runOps_callbacks (is : List Instr) (s : State) (hrun : s.phase = .running)
    (hcall : ∀ i ∈ is, isCallback i = true) :
    ∃ t, runOps is s = .next t ∧ t.phase = .running ∧ ∀ (d : Bool) (f : Option RegBank) (n : RegBank),
      ∃ d', runOps is { s with dirty := d, flushBuf := f, nv := n } =
        .next { t with dirty := d', flushBuf := f, nv := n } := by
  induction is generalizing s with
  | nil => exact ⟨s, rfl, hrun, fun d _ _ => ⟨d, rfl⟩⟩
  | cons i is ih =>
    obtain ⟨hi, his⟩ := List.forall_mem_cons.mp hcall
    obtain ⟨e, hstep⟩ := exec_callback_running i hi
    obtain ⟨t, ht, htrun, hhidden⟩ := ih (e.run s) hrun his
    refine ⟨t, by rw [runOps_cons i is s _ (hstep s hrun), ht], htrun, fun d f n => ?_⟩
    obtain ⟨d', hd'⟩ := hhidden (e.dirty d) f n
    exact ⟨d', (runOps_cons i is _ _ (hstep { s with dirty := d, flushBuf := f, nv := n } hrun)).trans hd'⟩

/-- Settles O44: the completion half of `runOps_callbacks`. -/
theorem callbacksAlwaysComplete : Obligations.CallbacksAlwaysComplete := by
  intro is s hrun hcall
  obtain ⟨t, ht, htrun, -⟩ := runOps_callbacks is s hrun hcall
  exact ⟨t, ht, htrun⟩

/-- Settles O38: the callbacks run as without the snapshot, and so the snapshot reaches `FLUSH_END` as it was taken. -/
theorem snapshotSurvivesCallbacks : Obligations.SnapshotSurvivesCallbacks := by
  intro is s hrun hdirty hbuf hcall
  obtain ⟨u, hu, hurun, hhidden⟩ := runOps_callbacks is s hrun hcall
  obtain ⟨d, hd⟩ := hhidden s.dirty (some s.bank) s.nv
  have hend := exec_flushEnd_enabled { u with dirty := d, flushBuf := some s.bank, nv := s.nv } s.bank hurun rfl
  have hall : runOps (.flushBegin :: is ++ [.flushEnd]) s =
      runOps [.flushEnd] { u with dirty := d, flushBuf := some s.bank, nv := s.nv } := by
    rw [List.cons_append, runOps_cons _ _ _ _ (exec_flushBegin_enabled s hrun hdirty hbuf), runOps_append _ _ _ _ hd]
  exact ⟨_, u, hu, hall.trans (runOps_cons _ _ _ _ hend), rfl, rfl, rfl, rfl, rfl⟩

/-! ## Frames -/

/-- Settles O42: the three writers by their inversion lemmas, and the frame by the cases of `exec_next`. -/
theorem dirtyFlagWriters : Obligations.DirtyFlagWriters := by
  intro i s t h
  refine ⟨?_, ?_, fun hcommit hend hres => ?_⟩
  · rintro ⟨v, rfl⟩
    obtain ⟨-, rfl⟩ := whenRunning_next s t _ (exec_wrCommit v s ▸ h)
    rfl
  · rintro (rfl | rfl)
    · obtain ⟨-, b, -, rfl⟩ := execFlushEnd_next s t h
      rfl
    · obtain ⟨-, rfl⟩ := execRestore_next s t h
      rw [restoreAll_eq]
  · obtain ⟨-, hrun⟩ | ⟨-, hi, -⟩ := exec_next i s t h
    · obtain ⟨a, -, rfl⟩ | ⟨r, v, -, rfl⟩ | ⟨v, hi, -⟩ | ⟨a, v, -, rfl⟩ | ⟨p, -, rfl⟩ | ⟨-, -, -, rfl⟩ |
        ⟨hi, -⟩ := hrun
      · rfl
      · exact writeReg_dirty r v s
      · exact absurd hi (hcommit v)
      · rfl
      · rw [sampleAll_frame]
      · rfl
      · exact absurd hi hend
    · exact absurd hi hres

/-- Settles O41: callbacks by the shape of their effect, and the flush steps by their equations. -/
theorem storageIsReadAndWrittenOnlyByItsOwners : Obligations.StorageIsReadAndWrittenOnlyByItsOwners := by
  intro i s t n hres h
  obtain hcall | rfl | rfl | rfl := instr_cases i
  · obtain ⟨e, hrun, rfl, hexec⟩ := exec_callback_next i hcall s t h
    exact ⟨fun _ => ⟨rfl, hexec { s with nv := n } hrun⟩, fun hi => by subst hi; cases hcall⟩
  · obtain ⟨hrun, hd, hf, rfl⟩ := execFlushBegin_next s t h
    exact ⟨fun _ => ⟨rfl, exec_flushBegin_enabled { s with nv := n } hrun hd hf⟩, fun hi => nomatch hi⟩
  · obtain ⟨hrun, b, hb, rfl⟩ := execFlushEnd_next s t h
    exact ⟨fun hne => absurd rfl hne, fun _ => exec_flushEnd_enabled { s with nv := n } b hrun hb⟩
  · exact absurd rfl hres

/-- Every operation extends the trace by effects that do not depend on it, and does not read it (R42). -/
theorem exec_trace (i : Instr) (s t : State) (h : exec i s = .next t) :
    ∃ es, t.fx = s.fx ++ es ∧ ∀ l, exec i { s with fx := l } = .next { t with fx := l ++ es } := by
  obtain hcall | rfl | rfl | rfl := instr_cases i
  · obtain ⟨e, hrun, rfl, hexec⟩ := exec_callback_next i hcall s t h
    exact ⟨e.fx s.bank, rfl, fun l => hexec { s with fx := l } hrun⟩
  · obtain ⟨hrun, hd, hf, rfl⟩ := execFlushBegin_next s t h
    refine ⟨[], (List.append_nil _).symm, fun l => ?_⟩
    rw [List.append_nil]
    exact exec_flushBegin_enabled { s with fx := l } hrun hd hf
  · obtain ⟨hrun, b, hb, rfl⟩ := execFlushEnd_next s t h
    exact ⟨[.nvStore b], rfl, fun l => exec_flushEnd_enabled { s with fx := l } b hrun hb⟩
  · obtain ⟨hs, rfl⟩ := execRestore_next s t h
    refine ⟨.nvLoad :: replayFx (loadedBank s.nv), by rw [restoreAll_eq], fun l => ?_⟩
    rw [exec_restore { s with fx := l } hs, restoreAll_eq, restoreAll_eq]

/-- No operation touches the model's inputs, and only `RESTORE` changes the phase. -/
theorem exec_inputs_frame (i : Instr) (s t : State) (h : exec i s = .next t) :
    t.pending = s.pending ∧ t.freeIx = s.freeIx ∧ (i ≠ .restore → t.phase = s.phase) := by
  obtain hcall | rfl | rfl | rfl := instr_cases i
  · obtain ⟨e, -, rfl, -⟩ := exec_callback_next i hcall s t h
    exact ⟨rfl, rfl, fun _ => rfl⟩
  · obtain ⟨-, -, -, rfl⟩ := execFlushBegin_next s t h
    exact ⟨rfl, rfl, fun _ => rfl⟩
  · obtain ⟨-, b, -, rfl⟩ := execFlushEnd_next s t h
    exact ⟨rfl, rfl, fun _ => rfl⟩
  · obtain ⟨-, rfl⟩ := execRestore_next s t h
    rw [restoreAll_eq]
    exact ⟨rfl, rfl, fun hne => absurd rfl hne⟩

/-- Only `RD` changes the read port (R120). -/
theorem exec_rdata_frame (i : Instr) (s t : State) (h : exec i s = .next t) (hrd : ∀ a, i ≠ .rd a) :
    t.rdata = s.rdata := by
  obtain ⟨-, hrun⟩ | ⟨-, -, rfl⟩ := exec_next i s t h
  · obtain ⟨a, hi, -⟩ | ⟨r, v, -, rfl⟩ | ⟨v, -, rfl⟩ | ⟨a, v, -, rfl⟩ | ⟨p, -, rfl⟩ | ⟨-, -, -, rfl⟩ |
      ⟨-, b, -, rfl⟩ := hrun
    · exact absurd hi (hrd a)
    · exact writeReg_rdata r v s
    · rfl
    · rfl
    · rw [sampleAll_frame]
    · rfl
    · rfl
  · rw [restoreAll_eq]

/-- Settles O45: the four frames above. -/
theorem modelFieldsFrame : Obligations.ModelFieldsFrame := by
  intro i s t h
  obtain ⟨hpending, hfree, hphase⟩ := exec_inputs_frame i s t h
  exact ⟨hpending, hfree, hphase, exec_rdata_frame i s t h, exec_trace i s t h⟩

/-! ## The block's own agents -/

/-- With nothing pending a step runs what the block's own agents present (R174, R196). -/
theorem step_own (s : State) (i : Instr) (hpending : s.pending = []) (hown : ownOperation s = some i) :
    step s = exec i s := by
  rw [step, hpending]
  simp only [stepIdle, hown]

/-- With nothing pending and nothing for the block's own agents to do, a step changes nothing. -/
theorem step_rest (s : State) (hpending : s.pending = []) (hown : ownOperation s = none) : step s = .next s := by
  rw [step, hpending]
  simp only [stepIdle, hown]

/-- The answers of two steps that both complete. -/
theorem core_run_two (s t u : State) (hst : step s = .next t) (htu : step t = .next u) :
    Sys2Proof.core.run 2 s = .next u := by
  simp only [Host.Core.run, Sys2Proof.core, hst, htu]

/-- Settles O51: at startup the block's own operation is `RESTORE`, which is admitted. -/
theorem startupCodeRunsRestore : Obligations.StartupCodeRunsRestore := by
  intro s hs hpending
  have hown : ownOperation s = some .restore := by rw [ownOperation, hs]
  have hstep := step_own s .restore hpending hown
  exact ⟨hstep, _, hstep.trans (exec_restore s hs)⟩

/-- Settles O50: the loop takes `FLUSH_BEGIN`, then `FLUSH_END`, then finds nothing to do. -/
theorem backgroundLoopFlushes : Obligations.BackgroundLoopFlushes := by
  intro s hrun hpending hdirty hbuf
  have hbegin : ownOperation s = some .flushBegin := by simp [ownOperation, hrun, hbuf, hdirty]
  have hend : ownOperation { s with flushBuf := some s.bank } = some .flushEnd := by simp [ownOperation, hrun]
  have hfirst := (step_own s _ hpending hbegin).trans (exec_flushBegin_enabled s hrun hdirty hbuf)
  have hsecond := (step_own { s with flushBuf := some s.bank } _ hpending hend).trans
    (exec_flushEnd_enabled { s with flushBuf := some s.bank } s.bank hrun rfl)
  refine ⟨_, core_run_two s _ _ hfirst hsecond, rfl, rfl, rfl, rfl, rfl, ?_⟩
  rw [step_rest]
  · exact hpending
  · simp [ownOperation, hrun]

/-! ## The power cycle -/

/-- A step on a pending power cycle takes it (R170, R213). -/
theorem step_powerCycle (s : State) (rest : List Stimulus) (h : s.pending = .powerCycle :: rest) :
    step s = .next (powerCycle { s with pending := rest }) := by
  rw [step, h]

/-- Before `RESTORE` every other operation is refused (R214). -/
theorem exec_beforeRestore (i : Instr) (s : State) (hs : s.phase = .startup) (hi : i ≠ .restore) :
    exec i s = .refused .beforeRestore := by
  obtain hcall | rfl | rfl | rfl := instr_cases i
  · obtain ⟨e, he⟩ := exec_callback i hcall
    rw [he, whenRunning, hs]
  · simp [exec, execFlushBegin, hs]
  · simp [exec, execFlushEnd, hs]
  · exact absurd rfl hi

/-- Settles O40: after the power cycle the block is before `RESTORE`, and admission follows the phase. -/
theorem powerCycleKeepsStorage : Obligations.PowerCycleKeepsStorage := by
  intro s rest hpending
  exact ⟨_, step_powerCycle s rest hpending, rfl, rfl, powerCycle_nv { s with pending := rest },
    fun i hi => exec_beforeRestore i _ rfl hi, _, exec_restore _ rfl⟩

/-- The handlers make nothing new of the bytes of a consistent bank (R48, R49). -/
theorem Consistent.sanitised_eq {s : State} (h : Consistent s) : sanitised s.bank = s.bank := by
  have hzero : (0 : Byte) = s.bank.reserved := h.reserved_zero.symm
  rw [sanitised, (direction_low_iff_and_0x0F s.bank.direction).mp h.direction_low, hzero]

/-- What `RESTORE` leaves in the bank. -/
theorem restoreAll_bank (s : State) : (restoreAll s).bank = sanitised (loadedBank s.nv) := by
  rw [restoreAll_eq, sanitised]

/-- Settles O39: the power cycle keeps the storage, `RESTORE` loads it, and a consistent bank is its own sanitised form. -/
theorem powerCycleRoundTrip : Obligations.PowerCycleRoundTrip := by
  intro s rest hrun hcons hnv hbuf hpending
  generalize hoff : powerCycle { s with pending := .request (encode .restore) :: rest } = off
  have hoffnv : off.nv = s.nv := by rw [← hoff]; exact powerCycle_nv _ hbuf
  have hfirst : step s = .next off := by rw [step_powerCycle s _ hpending, hoff]
  have hoffpending : off.pending = .request (encode .restore) :: rest := by rw [← hoff, powerCycle_pending]
  have hsecond : step off = .next (restoreAll { off with pending := rest }) := by
    rw [step_request off _ rest hoffpending, stepRequest_ok _ _ _ (decodeEncodeAgree .restore rfl)]
    exact exec_restore { off with pending := rest } (by rw [← hoff, powerCycle_phase])
  refine ⟨_, core_run_two s off _ hfirst hsecond, ?_, ?_, ?_⟩
  · rw [restoreAll_eq]
  · rw [restoreAll_eq, ← hoffnv]
  · rw [restoreAll_bank, hoffnv, loadedBank]
    split
    · rfl
    · rw [hnv, hcons.sanitised_eq]

end Sys2Proof.Machine
end
